-- ==== Sys2Proof/Word.lean ====
section
/-! DEFINITION. The word types of the B32K-RE and its bit slices (00_scope.md R8, R9). -/

namespace Sys2Proof

/-- Host data, a register, a buffer entry or a command word: 32 bits (R8). -/
abbrev Word := BitVec 32

/-- A host byte address: 24 bits (R8). -/
abbrev Addr := BitVec 24

/-- `v[hi:lo]`, the unsigned number made of bits `hi` down to `lo` of `v` (R9). -/
def Word.slice (v : Word) (hi lo : Nat) : Nat := v.toNat / 2 ^ lo % 2 ^ (hi + 1 - lo)

end Sys2Proof
end

