-- ==== Sys2Proof/Config.lean ====
section
/-! DEFINITION. What is fixed when a device is built (00_scope.md R7), and the free values: the values the spec leaves
unspecified (93_implementation_defined.md, treatment "any value"). -/

namespace Sys2Proof

/-- The parameters of R7: "the hardware is built for one value of each". The ROM's contents are these parameters
(R12, R33); the state carries them and no step writes them (assumption log 1). -/
structure Config where
  /-- BLOCK_SIZE, codepoints per ROM block, shared by both tiers. -/
  blockSize   : Nat
  /-- BLOCK_START_0, the tier-0 block-start codepoints, in order. -/
  blockStart0 : List Nat
  /-- BLOCK_START_1, the tier-1 block-start codepoints, in order. -/
  blockStart1 : List Nat
  /-- IN_DEPTH, entries of IN_MEM. -/
  inDepth     : Nat
  /-- OUT_DEPTH, entries of OUT_MEM. -/
  outDepth    : Nat
deriving DecidableEq, Repr

/-- The configuration that `State.reset` names: the ROM of 95_test_vectors.md section 1 (TEST_ROM, decision D34) and
its depths of 64. DESIGN CHOICE, unsafe (assumption log 1): the spec leaves all five parameters open, so a claim is made
for every configuration (`State.resetOf`, any state's `cfg`), never for this one. -/
def Config.testDevice : Config where
  blockSize   := 32
  blockStart0 := (List.range 512).map (fun i => 0x8E00 + 32 * i) ++ (List.range 512).map (fun i => 0x4E00 + 32 * i)
  blockStart1 := [0x0180, 0x01A0, 0x0250, 0x0270]
  inDepth     := 64
  outDepth    := 64

/-- FREE VALUE. What IN_MEM entry `index` holds from the reset numbered `epoch` until the host writes it (R31, R140, I8,
I9). Nothing constrains it (assumption log 3). -/
opaque Config.freeInEntry (epoch index : Nat) : Word

/-- FREE VALUE. What an unspecified read of the word at byte address `address` returns at the moment `moment` (R32, R41,
R145, I5, I6, I7). Nothing constrains it (assumption log 4). -/
opaque Config.freeRead (moment address : Nat) : Word

end Sys2Proof
end

