-- ==== Sys2Proof/Syntax.lean ====
section
/-! DEFINITION. The command set: one constructor per row of spec/opcode_table.json (30_encoding.md R63). -/

namespace Sys2Proof

/-- The seven commands. Operands are the unsigned numbers of R66 to R68; whether one fits its field is
`Instr.wf`. An illegal command word is no row of the table: the decoder rejects it by name (R64). -/
inductive Instr where
  /-- NOP (R79). -/
  | nop
  /-- RESIZE in_w, out_w, last_w (R90). -/
  | resize (inW outW lastW : Nat)
  /-- ENCODE (R103). -/
  | encode
  /-- DECODE (R111). -/
  | decode
  /-- FWD tier, value (R101). -/
  | fwd (tier value : Nat)
  /-- REV cp (R102). -/
  | rev (cp : Nat)
  /-- CLEAR (R80). -/
  | clear
deriving DecidableEq, Repr

end Sys2Proof
end

