-- ==== Sys2Proof/Machine/State.lean ====
section
/-! DEFINITION. The state of the B32K-RE as plain data (10_state.md), the reasons a step can stop, and the state after
reset (R35). -/

namespace Sys2Proof.Machine

/-- A buffer: (index, word) pairs, indices strictly rising, one 32-bit entry an index (R31, R32, R37). An index that is
not listed holds an unspecified value. The spec's smallest unit is the word: no byte order applies (R47; log 7). -/
abbrev Memory := List (Nat × Word)

/-- What a host write puts on the bus: a value, or a scratch register of the host notation (`WR addr, r6`, R74). -/
inductive Source where
  | imm (v : Word)
  | reg (r : Fin 8)
deriving DecidableEq, Repr

/-- One turn of a run (R51): a host access, the moment of the engine's completion step, or a RESET pulse (R12, R137). -/
inductive Turn where
  /-- `WR addr, v`: one host write (R74). -/
  | write (a : Addr) (v : Source)
  /-- `RD rN, addr`: one host read into a scratch register of the host (R74). -/
  | read (r : Fin 8) (a : Addr)
  /-- `WAIT`: read STATUS into r7 until BUSY = 0 (R74). -/
  | wait
  /-- `if (rN & mask) != 0 goto`, forward over the next `count` turns (95_test_vectors.md P3). -/
  | skipIfSet (r : Fin 8) (mask : Word) (count : Nat)
  /-- The engine's completion step, if a command is in flight (R76). -/
  | engine
  /-- The RESET input (R137). -/
  | reset
deriving DecidableEq, Repr

/-- The errors of R119. -/
inductive Err where
  | partialGroupMidStream
  | unrecognizedTier
  | unencodableValue
  | invalidCharacterWidth
  | misplacedPadding
  | invalidCharacter
  | illegalCommand
  | badWidth
  | inputLength
  | outputCapacity
deriving DecidableEq, Repr

/-- An error and its position: an element or group index, or none for NOPOS (R119, R121). -/
structure Raised where
  err : Err
  pos : Option Nat
deriving DecidableEq, Repr

/-- What decides the writes of an error (R121): the buffer commands RESIZE, ENCODE and DECODE, the lookup commands FWD
and REV, and an illegal word, "a command of no class" (R81). -/
inductive CommandClass where
  | buffer
  | lookup
  | none
deriving DecidableEq, Repr

/-- Reasons for a fault: none. "No access ever raises a bus error" (R42), "There is no runtime fatal state" (R127), and
an error of a command is a report, not a trap (R121). Safe: a machine with no fault hides none (log 15). -/
inductive Fault
deriving DecidableEq, Repr

/-- Reasons for a refusal. -/
inductive Refusal where
  /-- Raised by an arm of `exec` whose instruction has no meaning yet (there is none). Safe. -/
  | notModelled (mnemonic : String)
  /-- Raised by `powerUp` alone, for a parameter set that "describes no device" (R95, I3). Safe: no state is built. -/
  | malformedConfig
deriving DecidableEq, Repr

/-- The state. Every register and buffer of 10_state.md, the configuration (which no step writes), and four fields of
the model's own at the end. -/
structure State where
  /-- The device's parameters (R7): "Reset does not reset the configuration" (R36). -/
  cfg      : Config
  /-- STATUS.BUSY, bit 0 (R18). -/
  busy     : Bool
  /-- STATUS.DONE, bit 1 (R19). -/
  done     : Bool
  /-- STATUS.ERR, bit 2 (R20). -/
  err      : Bool
  /-- STATUS.HAZ, bit 3 (R21). -/
  haz      : Bool
  /-- STATUS.ERRCODE, bits [11:8] (R22). -/
  errCode  : BitVec 4
  /-- ERRPOS (R24). -/
  errPos   : Word
  /-- IN_LEN (R25). -/
  inLen    : Word
  /-- OUT_LEN (R26). -/
  outLen   : Word
  /-- LKRES (R27). -/
  lkRes    : Word
  /-- IRQEN.IE, bit 0 (R28). -/
  ie       : Bool
  /-- CMDL, the hidden latch of the accepted command word (R34). -/
  cmdl     : Word
  /-- IN_MEM (R31). -/
  inMem    : Memory
  /-- OUT_MEM (R32). -/
  outMem   : Memory
  /-- MODEL: r0 to r7 of the host notation (R74), the home of what the host reads (log 9). -/
  hostRegs : Vector Word 8
  /-- MODEL: the turns still to come (R51; log 2). -/
  script   : List Turn
  /-- MODEL: the moment from which an unspecified read draws its free value (log 4, log 11). -/
  draws    : Nat
  /-- MODEL: how many resets there were; selects what an unwritten IN_MEM entry holds (log 3, log 11). -/
  epoch    : Nat
deriving DecidableEq, Repr

/-- The state of a device of configuration `c` right after power-on reset: R35, item by item. CMDL is unspecified and
unobservable while BUSY = 0: 0 is a DESIGN CHOICE (log 5). The buffers list nothing: every entry is unspecified (R140).
The model's own fields start at 0 and empty (DESIGN CHOICE, log 9, log 11). -/
def State.resetOf (c : Config) : State where
  cfg      := c
  busy     := false
  done     := false
  err      := false
  haz      := false
  errCode  := 0
  errPos   := 0
  inLen    := 0
  outLen   := 0
  lkRes    := 0
  ie       := false
  cmdl     := 0
  inMem    := []
  outMem   := []
  hostRegs := Vector.replicate 8 0
  script   := []
  draws    := 0
  epoch    := 0

/-- The machine right after reset, for the configuration that assumption log 1 names. -/
def State.reset : State := State.resetOf Config.testDevice

end Sys2Proof.Machine
end

