-- ==== Sys2Proof/Machine/Flags.lean ====
section
/-! DEFINITION. The flags and the error codes (10_state.md R18 to R23, R29, R30; 60_exceptions.md R119). "No command
reads a flag as an operand" (R29). -/

namespace Sys2Proof.Machine

/-- The error code of STATUS.ERRCODE (R119). -/
def errCodeOf : Err → BitVec 4
  | .partialGroupMidStream => 0x1
  | .unrecognizedTier      => 0x2
  | .unencodableValue      => 0x3
  | .invalidCharacterWidth => 0x4
  | .misplacedPadding      => 0x5
  | .invalidCharacter      => 0x6
  | .illegalCommand        => 0x7
  | .badWidth              => 0x8
  | .inputLength           => 0x9
  | .outputCapacity        => 0xA

/-- NOPOS, "no position" (R10). -/
def noPos : Word := 0xFFFFFFFF

/-- What ERRPOS receives: an index, or NOPOS (R121). -/
def posWord : Option Nat → Word
  | some p => BitVec.ofNat 32 p
  | none   => noPos

/-- The 32 bits of STATUS (R18 to R23): [11:8] ERRCODE, 3 HAZ, 2 ERR, 1 DONE, 0 BUSY, every other bit 0. -/
def statusWord (busy done err haz : Bool) (errCode : BitVec 4) : Word :=
  0#20 ++ errCode ++ 0#4 ++ BitVec.ofBool haz ++ BitVec.ofBool err ++ BitVec.ofBool done ++ BitVec.ofBool busy

/-- Write-1-to-clear: writing 1 clears the bit, writing 0 leaves it (R15). -/
def writeOneToClear (old written : Bool) : Bool := old && !written

/-- The level of the IRQ line, `STATUS.DONE & IRQEN.IE` at all times (R30, R128). -/
def irq (s : State) : Bool := s.done && s.ie

/-- The 32 bits of IRQEN: bit 0 is IE, bits [31:1] read 0 (R28). -/
def irqEnWord (ie : Bool) : Word := 0#31 ++ BitVec.ofBool ie

end Sys2Proof.Machine
end

