-- ==== Sys2Proof/Machine/Operands.lean ====
section
/-! DEFINITION. The data word formats: how a command reads an IN_MEM entry (30_encoding.md R70) and lays out an OUT_MEM
entry (R71) and LKRES (R72). -/

namespace Sys2Proof.Machine

/-- A group: a value and the number of bits it carries, `value < 2^width` (R11). -/
structure Group where
  value : Nat
  width : Nat
deriving DecidableEq, Repr

/-- RESIZE reads the low bits of an entry; the regrouper itself never reads a bit above the width (R70, R85). -/
def elementOf (entry : Word) : Nat := entry.toNat

/-- ENCODE reads the byte `IN_MEM[i][7:0]` and ignores bits [31:8] (R46, R70). -/
def byteOf (entry : Word) : Nat := entry.slice 7 0

/-- DECODE reads the codepoint, all 32 bits (R70). -/
def codepointOf (entry : Word) : Nat := entry.toNat

/-- RESIZE's output entry, `(width << 16) | value` (R71). -/
def groupWord (g : Group) : Word := BitVec.ofNat 32 (g.width <<< 16 ||| g.value)

/-- ENCODE's output entry: the codepoint in [15:0] (R71). -/
def codepointWord (cp : Nat) : Word := BitVec.ofNat 32 cp

/-- DECODE's output entry: the byte in [7:0] (R71). -/
def byteWord (b : Nat) : Word := BitVec.ofNat 32 b

/-- LKRES after a FWD success: HIT in [31], the codepoint in [15:0] (R72, R101). -/
def fwdWord (cp : Nat) : Word := BitVec.ofNat 32 (1 <<< 31 ||| cp)

/-- LKRES after a REV success: HIT in [31], the tier in [19:16], the value in [14:0] (R72, R102). -/
def revWord (t v : Nat) : Word := BitVec.ofNat 32 (1 <<< 31 ||| t <<< 16 ||| v)

end Sys2Proof.Machine
end

