-- ==== Sys2Proof/Machine/Ops.lean ====
section
/-! DEFINITION. The named operations over buffers and registers: acceptance, the completion writes of each outcome, the
one error entry (60_exceptions.md R121), and reset. -/

namespace Sys2Proof.Machine

/-! ### Buffers -/

/-- What a buffer lists at an index; `none` for an index that holds an unspecified value. -/
def Memory.lookup : Memory → Nat → Option Word
  | [], _ => none
  | (j, w) :: m, i => if j = i then some w else Memory.lookup m i

/-- Write one entry, keeping the indices strictly rising. -/
def Memory.store : Memory → Nat → Word → Memory
  | [], i, v => [(i, v)]
  | (j, w) :: m, i, v =>
    if i < j then (i, v) :: (j, w) :: m
    else if i = j then (i, v) :: m
    else (j, w) :: Memory.store m i v

/-- `for k in 0 .. n-1: MEM[i + k] <- ws[k]` (R77). -/
def Memory.storeAll : Memory → Nat → List Word → Memory
  | m, _, [] => m
  | m, i, w :: ws => Memory.storeAll (Memory.store m i w) (i + 1) ws

/-- The canonical form of a buffer of `depth` entries: indices strictly rising and below the depth. An unlisted index
reads as a free value, to which no listed word is equal by definition, so no entry is redundant. -/
def Memory.wf (depth : Nat) (m : Memory) : Bool :=
  decide (m.Pairwise (fun a b => a.1 < b.1)) && m.all (fun e => decide (e.1 < depth))

/-- IN_MEM[i] as the engine and the host read it: "the last value written, or an unspecified value if nothing was written
since reset" (R40, R140). The unspecified value is one value per reset and index, the same at every read (R50; log 3). -/
def inEntry (s : State) (i : Nat) : Word :=
  match Memory.lookup s.inMem i with
  | some w => w
  | none   => Config.freeInEntry s.epoch i

/-- `IN_MEM[0], ..., IN_MEM[L-1]` in increasing index order (R44), with L = IN_LEN. -/
def inEntries (s : State) : List Word := (List.range s.inLen.toNat).map (inEntry s)

/-! ### Acceptance and completion -/

/-- Acceptance of the command word `w` while BUSY = 0 (R75). "Nothing else changes at acceptance". -/
def acceptCommand (w : Word) (s : State) : State := { s with cmdl := w, busy := true, done := false }

/-- The writes every completion makes (R77). -/
def finish (s : State) : State := { s with busy := false, done := true }

/-- The error report of a command that raised no error (R20, R22, R24, R77). -/
def reportSuccess (s : State) : State := { s with err := false, errCode := 0, errPos := 0 }

/-- The error report of `raise E(pos)` (R121). -/
def reportError (e : Raised) (s : State) : State :=
  { s with err := true, errCode := errCodeOf e.err, errPos := posWord e.pos }

/-- "OUT_LEN <- 0; for every k < OUT_DEPTH: OUT_MEM[k] <- any" (R121): no entry is listed, so each is unspecified. -/
def dropOutput (s : State) : State := { s with outLen := 0, outMem := [] }

/-- What an error does to the results, by the command's class (R121). -/
def dropResults : CommandClass → State → State
  | .buffer, s => dropOutput s
  | .lookup, s => { s with lkRes := 0 }
  | .none,   s => s

/-- TAKING AN ERROR: `raise E(pos)` ends the command at once with these writes (R121). Nothing is vectored and no state
is saved apart from ERRCODE and ERRPOS. There is no return from it (R125). -/
def raiseError (c : CommandClass) (e : Raised) (s : State) : State := finish (dropResults c (reportError e s))

/-- Completion of a buffer command that succeeded with the result list `out` (R77): "entries k >= n keep their
values". -/
def commitBuffer (out : List Word) (s : State) : State :=
  finish (reportSuccess
    { s with outMem := Memory.storeAll s.outMem 0 out, outLen := BitVec.ofNat 32 out.length })

/-- Completion of a lookup command that succeeded with the result word `r` (R77). -/
def commitLookup (r : Word) (s : State) : State := finish (reportSuccess { s with lkRes := r })

/-- A buffer command's completion from its outcome. -/
def completeBuffer (r : Except Raised (List Word)) (s : State) : State :=
  match r with
  | .ok out  => commitBuffer out s
  | .error e => raiseError .buffer e s

/-- A lookup command's completion from its outcome. -/
def completeLookup (r : Except Raised Word) (s : State) : State :=
  match r with
  | .ok w    => commitLookup w s
  | .error e => raiseError .lookup e s

/-! ### Checks shared by the buffer commands -/

/-- IN_LEN against IN_DEPTH (R90, R103, R111): checked before any element is read. -/
def checkInputLength (s : State) : Except Raised Unit :=
  if s.inLen.toNat > s.cfg.inDepth then .error ⟨.inputLength, none⟩ else .ok ()

/-- The result's length against OUT_DEPTH, "only when no earlier error applies" (R123). -/
def checkCapacity (s : State) (out : List Word) : Except Raised (List Word) :=
  if out.length > s.cfg.outDepth then .error ⟨.outputCapacity, none⟩ else .ok out

/-! ### Reset -/

/-- The RESET input (R137 to R140): every device item at its value of R35, the configuration and the ROM untouched, the
command in flight abandoned. The host's registers and its further turns are no device state. A new epoch begins, so
every IN_MEM entry is unspecified anew. -/
def resetDevice (s : State) : State :=
  { State.resetOf s.cfg with
    hostRegs := s.hostRegs, script := s.script, draws := s.draws, epoch := s.epoch + 1 }

/-- A new moment for the unspecified reads (log 4). -/
def newMoment (s : State) : State := { s with draws := s.draws + 1 }

end Sys2Proof.Machine
end

