-- ==== Sys2Proof/Machine/Bus.lean ====
section
/-! DEFINITION. The host register space: the address map (20_memory.md R38 to R43), host writes (70_reset_and_hazards.md
R144) and host reads (R145). -/

namespace Sys2Proof.Machine

/-- What the word at an address is (R39 to R42). -/
inductive Target where
  | id
  | ctrl
  | status
  | errPos
  | inLen
  | outLen
  | lkRes
  | irqEn
  | inEntry (i : Nat)
  | outEntry (k : Nat)
  | reserved
deriving DecidableEq, Repr

/-- `A[23:2]`, the word an address selects; `A[1:0]` is ignored (R38). -/
def wordIndex (a : Addr) : Nat := a.toNat / 4

/-- The eight registers, one per word from 0x000000 (R39). -/
def registerAt : Nat → Target
  | 0 => .id
  | 1 => .ctrl
  | 2 => .status
  | 3 => .errPos
  | 4 => .inLen
  | 5 => .outLen
  | 6 => .lkRes
  | 7 => .irqEn
  | _ => .reserved

/-- The address map: registers, the IN window at 0x40_0000, the OUT window at 0x80_0000, everything else reserved (R39
to R42). -/
def target (c : Config) (a : Addr) : Target :=
  let w := wordIndex a
  if w < 0x100000 then registerAt w
  else if w < 0x200000 then
    if w - 0x100000 < c.inDepth then .inEntry (w - 0x100000) else .reserved
  else if w < 0x300000 then
    if w - 0x200000 < c.outDepth then .outEntry (w - 0x200000) else .reserved
  else .reserved

/-- The constant of ID, the ASCII text "B32K" (R16). -/
def idValue : Word := 0x4233324B

/-- A write that is dropped because BUSY = 1 sets HAZ and does nothing else (R21, R144). -/
def dropWrite (s : State) : State := { s with haz := true }

/-- One host write of the word `v` (R17, R19, R21, R23, R25, R28, R40 to R43, R144). -/
def hostWrite (a : Addr) (v : Word) (s : State) : State :=
  match target s.cfg a with
  | .ctrl => if s.busy then dropWrite s else acceptCommand v s
  | .inLen => if s.busy then dropWrite s else { s with inLen := v }
  | .inEntry i => if s.busy then dropWrite s else { s with inMem := Memory.store s.inMem i v }
  | .status =>
    { s with done := writeOneToClear s.done (v.getLsbD 1), haz := writeOneToClear s.haz (v.getLsbD 3) }
  | .irqEn => { s with ie := v.getLsbD 0 }
  | .id => s
  | .errPos => s
  | .outLen => s
  | .lkRes => s
  | .outEntry _ => s
  | .reserved => s

/-- What an unspecified read of the word at `a` returns at this moment (R145, I5, I6; log 4). -/
def freeAt (a : Addr) (s : State) : Word := Config.freeRead s.draws (4 * wordIndex a)

/-- A register that reads an unspecified value while BUSY = 1 (R145). -/
def unlessBusy (a : Addr) (s : State) (v : Word) : Word := if s.busy then freeAt a s else v

/-- STATUS as the host reads it: ERR and ERRCODE are unspecified while BUSY = 1, the other bits are as they are (R145). -/
def statusRead (a : Addr) (s : State) : Word :=
  if s.busy then
    statusWord s.busy s.done ((freeAt a s).getLsbD 2) s.haz (BitVec.ofNat 4 ((freeAt a s).slice 11 8))
  else statusWord s.busy s.done s.err s.haz s.errCode

/-- OUT_MEM[k] as the host reads it: the word the last successful buffer command wrote for k < OUT_LEN while BUSY = 0,
else unspecified (R32, R41, R145). -/
def outEntryRead (a : Addr) (k : Nat) (s : State) : Word :=
  if !s.busy && decide (k < s.outLen.toNat) then (Memory.lookup s.outMem k).getD (freeAt a s) else freeAt a s

/-- The value of one host read (R16, R17, R23 to R28, R40 to R42, R145). "No read has a side effect" (R50). -/
def hostRead (a : Addr) (s : State) : Word :=
  match target s.cfg a with
  | .id => idValue
  | .ctrl => 0
  | .status => statusRead a s
  | .errPos => unlessBusy a s s.errPos
  | .inLen => s.inLen
  | .outLen => unlessBusy a s s.outLen
  | .lkRes => unlessBusy a s s.lkRes
  | .irqEn => irqEnWord s.ie
  | .inEntry i => inEntry s i
  | .outEntry k => outEntryRead a k s
  | .reserved => 0

/-- The register addresses of R39. -/
def ctrlAddr : Addr := 0x000004
def statusAddr : Addr := 0x000008
def errPosAddr : Addr := 0x00000C
def inLenAddr : Addr := 0x000010
def outLenAddr : Addr := 0x000014
def lkResAddr : Addr := 0x000018
def irqEnAddr : Addr := 0x00001C

/-- Input entry i, "the word at 0x40_0000 + 4*i" (R40). -/
def inAddr (i : Nat) : Addr := BitVec.ofNat 24 (0x400000 + 4 * i)

/-- Output entry k, "the word at 0x80_0000 + 4*k" (R41). -/
def outAddr (k : Nat) : Addr := BitVec.ofNat 24 (0x800000 + 4 * k)

end Sys2Proof.Machine
end

