-- ==== Sys2Proof/WellFormed.lean ====
section
/-! DEFINITION. Which commands an assembler accepts: every operand fits its field (30_encoding.md R73). -/

namespace Sys2Proof

/-- "An assembler refuses an operand that does not fit its field. It accepts every value that fits, including the
widths and tiers that fail when the command runs" (R73; field widths R60 to R62). -/
def Instr.wf : Instr → Bool
  | .nop => true
  | .resize inW outW lastW => decide (inW < 2 ^ 5) && decide (outW < 2 ^ 5) && decide (lastW < 2 ^ 5)
  | .encode => true
  | .decode => true
  | .fwd tier value => decide (tier < 2 ^ 4) && decide (value < 2 ^ 15)
  | .rev cp => decide (cp < 2 ^ 21)
  | .clear => true

end Sys2Proof
end

