-- ==== Sys2Proof/Decode.lean ====
section
/-! DEFINITION. Decoding a command word, total on every word (30_encoding.md R57 to R68), and the encoder (R73). -/

namespace Sys2Proof

/-- Why a word is an illegal command word (R64). -/
inductive Illegal where
  /-- OP is 0x7 to 0xF: reserved for future commands (R65). -/
  | reservedOpcode (op : Nat)
  /-- OP is 0x0 to 0x6 and a reserved field of its format is not zero (R64). -/
  | reservedBits (op : Nat)
deriving DecidableEq, Repr

/-- The four formats of R59 to R62. -/
inductive Format where
  /-- No operands: reserved [31:4]. -/
  | n
  /-- Widths: LAST_W [22:18], OUT_W [17:13], IN_W [12:8]; reserved [31:23] and [7:4]. -/
  | w
  /-- Lookup by value: VALUE [22:8], TIER [7:4]; reserved [31:23]. -/
  | l
  /-- Lookup by codepoint: CP [28:8]; reserved [31:29] and [7:4]. -/
  | c
deriving DecidableEq, Repr

/-- OP, bits [3:0] of every command word (R58). -/
def opOf (w : Word) : Nat := w.slice 3 0

/-- The bits of a format's reserved fields and of OP: the `mask` column of R63. -/
def Format.mask : Format → Word
  | .n => 0xFFFFFFFF
  | .w => 0xFF8000FF
  | .l => 0xFF80000F
  | .c => 0xE00000FF

/-- A word selects the row of opcode `op` when `(w & mask) == match`; every `match` of R63 is the bare opcode. -/
def selects (f : Format) (op : Nat) (w : Word) : Bool := w &&& f.mask == BitVec.ofNat 32 op

/-- The command of a word that selects its opcode's row, else the reason the word is illegal (R64). -/
def decodeRow (f : Format) (op : Nat) (i : Instr) (w : Word) : Except Illegal Instr :=
  if selects f op w then .ok i else .error (.reservedBits op)

/-- Decode is total on every 32-bit word (R64). The operands are the slices of R66 to R68. -/
def decodeWord (w : Word) : Except Illegal Instr :=
  match opOf w with
  | 0 => decodeRow .n 0 .nop w
  | 1 => decodeRow .w 1 (.resize (w.slice 12 8) (w.slice 17 13) (w.slice 22 18)) w
  | 2 => decodeRow .n 2 .encode w
  | 3 => decodeRow .n 3 .decode w
  | 4 => decodeRow .l 4 (.fwd (w.slice 7 4) (w.slice 22 8)) w
  | 5 => decodeRow .c 5 (.rev (w.slice 28 8)) w
  | 6 => decodeRow .n 6 .clear w
  | op => .error (.reservedOpcode op)

/-- The number of a command's word, as the assembler table of R73 writes it. -/
def encodeNat : Instr → Nat
  | .nop => 0x0
  | .resize inW outW lastW => 0x1 ||| inW <<< 8 ||| outW <<< 13 ||| lastW <<< 18
  | .encode => 0x2
  | .decode => 0x3
  | .fwd tier value => 0x4 ||| tier <<< 4 ||| value <<< 8
  | .rev cp => 0x5 ||| cp <<< 8
  | .clear => 0x6

/-- The word of a well-formed command (R73). -/
def encode (i : Instr) : Word := BitVec.ofNat 32 (encodeNat i)

/-- The assembler of R73: it refuses an operand that does not fit its field. -/
def assemble (i : Instr) : Option Word := if i.wf then some (encode i) else none

/-- The instruction the decoder reads from an instruction whose bits are `w`, of `nbits` bits, every bit above them
zero. A command is one 32-bit word (R57), so a number that needs more bits is no command. -/
def decodeTableWord (nbits w : Nat) : Option Instr :=
  if w % 2 ^ nbits < 2 ^ 32 then
    match decodeWord (BitVec.ofNat 32 (w % 2 ^ nbits)) with
    | .ok i => some i
    | .error _ => none
  else none

end Sys2Proof
end

