-- ==== Sys2Proof/Machine/Regroup.lean ====
section
/-! DEFINITION. The Bit Regrouper (41_regrouper.md R83 to R89). -/

namespace Sys2Proof.Machine

/-- The working registers of a regrouping, which "exist only inside a command" (R13, R35): ACC, a 16-bit accumulator,
NHELD, the count of bits it holds, and the groups emitted so far. -/
structure Regrouper where
  acc   : Nat
  nheld : Nat
  out   : List Group
deriving DecidableEq, Repr

/-- `ACC <- 0; NHELD <- 0; out <- []` (R84). -/
def Regrouper.start : Regrouper := ⟨0, 0, []⟩

/-- Shift one bit into ACC; when NHELD reaches `outW`, emit a full group and reset the accumulator (R84). -/
def shiftIn (outW : Nat) (r : Regrouper) (bit : Nat) : Regrouper :=
  let acc := (r.acc <<< 1 ||| bit) % 2 ^ 16
  let nheld := r.nheld + 1
  if nheld = outW then ⟨0, 0, r.out ++ [⟨acc, outW⟩]⟩ else ⟨acc, nheld, r.out⟩

/-- Bits `w-1` down to 0 of one element, most significant first (R45, R84). -/
def shiftInElement (outW : Nat) (r : Regrouper) (e : Nat) : Nat → Regrouper
  | 0     => r
  | j + 1 => shiftInElement outW (shiftIn outW r (e / 2 ^ j % 2)) e j

/-- The elements in index order: `last_w` bits of the final element, `in_w` bits of every other (R84). -/
def shiftInElements (inW outW lastW : Nat) (r : Regrouper) : List Nat → Regrouper
  | []           => r
  | [e]          => shiftInElement outW r e lastW
  | e :: e' :: es => shiftInElements inW outW lastW (shiftInElement outW r e inW) (e' :: es)

/-- `if NHELD > 0`, the one partial group (R84). -/
def emitPartial (r : Regrouper) : List Group :=
  if r.nheld > 0 then r.out ++ [⟨r.acc, r.nheld⟩] else r.out

/-- `Regroup(elems, in_w, out_w, last_w)` (R84). -/
def regroup (elems : List Nat) (inW outW lastW : Nat) : List Group :=
  emitPartial (shiftInElements inW outW lastW Regrouper.start elems)

end Sys2Proof.Machine
end

