-- ==== Sys2Proof/Machine/Rom.lean ====
section
/-! DEFINITION. The dual-tier codepoint ROM: its well-formedness, its two lookups (42_rom.md R92 to R100), and the
building of a device (R95). -/

namespace Sys2Proof.Machine

/-- The size of tier t's value domain, `2^(15 - 8t)` (R92). -/
def domainSize (t : Nat) : Nat := 2 ^ (15 - 8 * t)

/-- BLOCK_START_t; the ROM has two tiers, 0 and 1 (R92). -/
def blockStarts (c : Config) : Nat → List Nat
  | 0 => c.blockStart0
  | 1 => c.blockStart1
  | _ => []

/-- A codepoint that is a single UTF-16 code unit: at most 0xFFFF and no surrogate (R94 W1). -/
def singleUnit (cp : Nat) : Bool := decide (cp ≤ 0xFFFF) && !(decide (0xD800 ≤ cp) && decide (cp ≤ 0xDFFF))

/-- W1: every block start is a single code unit (R94). -/
def romStartsFit (c : Config) : Bool := (c.blockStart0 ++ c.blockStart1).all singleUnit

/-- W2: the blocks cover each tier's domain exactly (R94). -/
def romCovers (c : Config) : Bool :=
  decide (1 ≤ c.blockSize) && decide (c.blockStart0.length * c.blockSize = domainSize 0) &&
    decide (c.blockStart1.length * c.blockSize = domainSize 1)

/-- W3: every codepoint of every block is a single code unit (R94). -/
def romBlocksFit (c : Config) : Bool :=
  (c.blockStart0 ++ c.blockStart1).all fun b => (List.range c.blockSize).all fun o => singleUnit (b + o)

/-- W4: the codepoints of all blocks of both tiers are pairwise distinct (R94), said block by block: no two blocks
share a codepoint (DEDUCED, log 13). -/
def romBlocksDisjoint (c : Config) : Bool :=
  decide ((c.blockStart0 ++ c.blockStart1).Pairwise fun a b => a + c.blockSize ≤ b ∨ b + c.blockSize ≤ a)

/-- WF_ROM (R94). -/
def romWf (c : Config) : Bool := romStartsFit c && romCovers c && romBlocksFit c && romBlocksDisjoint c

/-- A buffer depth of R7: 1 to 2^20 entries. -/
def depthLegal (d : Nat) : Bool := decide (1 ≤ d) && decide (d ≤ 2 ^ 20)

/-- The legal values of R7. -/
def configLegal (c : Config) : Bool := romWf c && depthLegal c.inDepth && depthLegal c.outDepth

/-- Building a device and its power-on reset: "A parameter set that fails ... describes no device", and the model
builds no state for it (R7, R95, I3). -/
def powerUp (c : Config) : Host.Outcome State Fault Refusal :=
  if configLegal c then .next (State.resetOf c) else .refused .malformedConfig

/-- `Fwd(t, v)`, value to codepoint (R96). -/
def fwd (c : Config) (t v : Nat) : Option Nat :=
  if t ≥ 2 then none
  else if v ≥ domainSize t then none
  else match (blockStarts c t)[v / c.blockSize]? with
    | none   => none
    | some b => some (b + v % c.blockSize)

/-- The first block, from block `i` on, that holds the codepoint: the value `i*BLOCK_SIZE + (cp - start)` (R97). -/
def revInBlocks (size cp : Nat) : List Nat → Nat → Option Nat
  | [], _ => none
  | b :: bs, i => if b ≤ cp ∧ cp < b + size then some (i * size + (cp - b)) else revInBlocks size cp bs (i + 1)

/-- `Rev(cp)`, codepoint to tier and value, tier 0 probed first (R97). -/
def rev (c : Config) (cp : Nat) : Option (Nat × Nat) :=
  match revInBlocks c.blockSize cp (blockStarts c 0) 0 with
  | some v => some (0, v)
  | none =>
    match revInBlocks c.blockSize cp (blockStarts c 1) 0 with
    | some v => some (1, v)
    | none   => none

end Sys2Proof.Machine
end

