-- ==== Sys2Proof/Machine/Codec.lean ====
section
/-! DEFINITION. ENCODE (43_encode.md R103 to R110) and DECODE (44_decode.md R111 to R118). -/

namespace Sys2Proof.Machine

/-! ### ENCODE -/

/-- Step (3): the number of padding bits of a final group of width w, `(15 - w) mod 8` (R104). -/
def padBits (w : Nat) : Nat := (15 - w) % 8

/-- Step (3): tier and value of a group. A full group is tier 0 as it stands; a partial one is padded with 1-bits and
takes the tier `(15 - padded width) / 8` (R103 to R105). -/
def tierAndValue (g : Group) : Nat × Nat :=
  if g.width = 15 then (0, g.value)
  else
    let pad := padBits g.width
    ((15 - (g.width + pad)) / 8, g.value <<< pad ||| (2 ^ pad - 1))

/-- Steps (2) to (4) for group `k`, `last` saying that it is the final one (R103). -/
def encodeGroup (c : Config) (k : Nat) (g : Group) (last : Bool) : Except Raised Nat :=
  if !last && g.width != 15 then .error ⟨.partialGroupMidStream, some k⟩
  else
    let (t, v) := tierAndValue g
    if t ≥ 2 then .error ⟨.unrecognizedTier, some k⟩
    else match fwd c t v with
      | none    => .error ⟨.unencodableValue, some k⟩
      | some cp => .ok cp

/-- The groups in order from index `k`; the first failing group ends the command (R103, R124). -/
def encodeGroups (c : Config) : Nat → List Group → Except Raised (List Nat)
  | _, [] => .ok []
  | k, g :: gs =>
    match encodeGroup c k g gs.isEmpty with
    | .error e => .error e
    | .ok cp =>
      match encodeGroups c (k + 1) gs with
      | .error e => .error e
      | .ok cps  => .ok (cp :: cps)

/-- ENCODE's outcome (R103): InputLength, then the groups, then OutputCapacity. -/
def encodeOutcome (s : State) : Except Raised (List Word) :=
  match checkInputLength s with
  | .error e => .error e
  | .ok _ =>
    match encodeGroups s.cfg 0 (regroup ((inEntries s).map byteOf) 8 15 8) with
    | .error e => .error e
    | .ok cps  => checkCapacity s (cps.map codepointWord)

/-- ENCODE: bytes to codepoints (R103). -/
def execEncode (s : State) : Host.Outcome State Fault Refusal :=
  .next (completeBuffer (encodeOutcome s) s)

/-! ### DECODE -/

/-- One character at position `p`: its tier and value. InvalidCharacterWidth, then InvalidCharacter, then
MisplacedPadding for a tier-1 character that is not the last (R111, R113, R123). -/
def decodeChar (c : Config) (p : Nat) (cp : Nat) (last : Bool) : Except Raised (Nat × Nat) :=
  if cp > 0xFFFF then .error ⟨.invalidCharacterWidth, some p⟩
  else match rev c cp with
    | none => .error ⟨.invalidCharacter, some p⟩
    | some (t, v) =>
      if t ≥ 1 && !last then .error ⟨.misplacedPadding, some p⟩ else .ok (t, v)

/-- The characters in order from position `p`, "single pass, no backtracking" (R124): the recorded values and `last_w`,
15 unless the final character is of a tier t >= 1, whose `valid_bits` are `15 - 8*t` (R111, R112). -/
def decodeChars (c : Config) : Nat → List Nat → Except Raised (List Nat × Nat)
  | _, [] => .ok ([], 15)
  | p, cp :: cps =>
    match decodeChar c p cp cps.isEmpty with
    | .error e => .error e
    | .ok (t, v) =>
      match decodeChars c (p + 1) cps with
      | .error e => .error e
      | .ok (vals, lastW) => .ok (v :: vals, if t ≥ 1 then 15 - 8 * t else lastW)

/-- `[ g.value for g in groups if g.width == 8 ]`: the partial byte is dropped unchecked (R111, R114, R115). -/
def fullBytes (groups : List Group) : List Nat := (groups.filter fun g => g.width == 8).map (·.value)

/-- DECODE's outcome (R111): InputLength, then the characters, then OutputCapacity. -/
def decodeOutcome (s : State) : Except Raised (List Word) :=
  match checkInputLength s with
  | .error e => .error e
  | .ok _ =>
    match decodeChars s.cfg 0 ((inEntries s).map codepointOf) with
    | .error e => .error e
    | .ok (vals, lastW) => checkCapacity s ((fullBytes (regroup vals 15 8 lastW)).map byteWord)

/-- DECODE: codepoints to bytes (R111). -/
def execDecode (s : State) : Host.Outcome State Fault Refusal :=
  .next (completeBuffer (decodeOutcome s) s)

end Sys2Proof.Machine
end

