-- ==== Sys2Proof/Machine/Control.lean ====
section
/-! DEFINITION. The commands that move no data: NOP (40_control.md R79), CLEAR (R80) and the illegal word (R81). -/

namespace Sys2Proof.Machine

/-- NOP: "at completion, only STATUS.BUSY <- 0; STATUS.DONE <- 1" (R79). -/
def execNop (s : State) : Host.Outcome State Fault Refusal := .next (finish s)

/-- CLEAR: the error report, OUT_LEN, LKRES and HAZ to 0 (R80). OUT_MEM entries are not erased. -/
def execClear (s : State) : Host.Outcome State Fault Refusal :=
  .next (finish (reportSuccess { s with outLen := 0, lkRes := 0, haz := false }))

/-- An illegal command word: `raise IllegalCommand(NOPOS)` for a command of no class (R81). -/
def completeIllegal (s : State) : Host.Outcome State Fault Refusal :=
  .next (raiseError .none ⟨.illegalCommand, none⟩ s)

end Sys2Proof.Machine
end

