-- ==== Sys2Proof/Machine/Lookup.lean ====
section
/-! DEFINITION. FWD (42_rom.md R101) and REV (R102). -/

namespace Sys2Proof.Machine

/-- FWD's outcome: UnrecognizedTier, then UnencodableValue, else the codepoint (R101). -/
def fwdOutcome (tier value : Nat) (c : Config) : Except Raised Word :=
  if tier ≥ 2 then .error ⟨.unrecognizedTier, none⟩
  else match fwd c tier value with
    | none    => .error ⟨.unencodableValue, none⟩
    | some cp => .ok (fwdWord cp)

/-- FWD: forward ROM lookup (R101). -/
def execFwd (tier value : Nat) (s : State) : Host.Outcome State Fault Refusal :=
  .next (completeLookup (fwdOutcome tier value s.cfg) s)

/-- REV's outcome: InvalidCharacterWidth, then InvalidCharacter, else the tier and value (R102). -/
def revOutcome (cp : Nat) (c : Config) : Except Raised Word :=
  if cp > 0xFFFF then .error ⟨.invalidCharacterWidth, none⟩
  else match rev c cp with
    | none        => .error ⟨.invalidCharacter, none⟩
    | some (t, v) => .ok (revWord t v)

/-- REV: reverse ROM lookup (R102). -/
def execRev (cp : Nat) (s : State) : Host.Outcome State Fault Refusal :=
  .next (completeLookup (revOutcome cp s.cfg) s)

end Sys2Proof.Machine
end

