-- ==== Sys2Proof/Machine/Resize.lean ====
section
/-! DEFINITION. RESIZE (41_regrouper.md R90). -/

namespace Sys2Proof.Machine

/-- The legal widths: each 1 to 16, and `last_w <= in_w` (R83, R90). -/
def widthsLegal (inW outW lastW : Nat) : Bool :=
  decide (1 ≤ inW) && decide (inW ≤ 16) && decide (1 ≤ outW) && decide (outW ≤ 16) &&
    decide (1 ≤ lastW) && decide (lastW ≤ inW)

/-- RESIZE's outcome: BadWidth, then InputLength, then OutputCapacity, else the groups (R90). -/
def resizeOutcome (inW outW lastW : Nat) (s : State) : Except Raised (List Word) :=
  if widthsLegal inW outW lastW then
    match checkInputLength s with
    | .error e => .error e
    | .ok _ => checkCapacity s ((regroup ((inEntries s).map elementOf) inW outW lastW).map groupWord)
  else .error ⟨.badWidth, none⟩

/-- RESIZE: reslice IN_MEM into groups of another width (R90). -/
def execResize (inW outW lastW : Nat) (s : State) : Host.Outcome State Fault Refusal :=
  .next (completeBuffer (resizeOutcome inW outW lastW s) s)

end Sys2Proof.Machine
end

