-- ==== Sys2Proof/Machine/Dispatch.lean ====
section
/-! DEFINITION. The completion writes of each command, one arm per constructor (30_encoding.md R63, 40_control.md R76). -/

namespace Sys2Proof.Machine

def exec (i : Instr) (s : State) : Host.Outcome State Fault Refusal :=
  match i with
  | .nop => Sys2Proof.Machine.execNop s
  | .resize inW outW lastW => Sys2Proof.Machine.execResize inW outW lastW s
  | .encode => Sys2Proof.Machine.execEncode s
  | .decode => Sys2Proof.Machine.execDecode s
  | .fwd tier value => Sys2Proof.Machine.execFwd tier value s
  | .rev cp => Sys2Proof.Machine.execRev cp s
  | .clear => Sys2Proof.Machine.execClear s

end Sys2Proof.Machine
end

