-- ==== Sys2Proof/Machine/Engine.lean ====
section
/-! DEFINITION. The engine's completion step (40_control.md R76). -/

namespace Sys2Proof.Machine

/-- The completion step of the command in flight: decode CMDL, run the command, or raise IllegalCommand (R76, R81). -/
def completeCommand (s : State) : Host.Outcome State Fault Refusal :=
  match decodeWord s.cmdl with
  | .ok i    => exec i s
  | .error _ => completeIllegal s

/-- The engine's turn: it "never starts a command the host did not issue" (R76), so an idle engine does nothing. -/
def engineTurn (s : State) : Host.Outcome State Fault Refusal :=
  if s.busy then completeCommand (newMoment s) else .next s

end Sys2Proof.Machine
end

