-- ==== Sys2Proof/Machine/Turns.lean ====
section
/-! DEFINITION. The turns of a run (20_memory.md R51) and the host pseudo-instructions that expand to them
(30_encoding.md R74). -/

namespace Sys2Proof.Machine

/-- The value a host write puts on the bus (R74). -/
def sourceValue (s : State) : Source → Word
  | .imm v => v
  | .reg r => s.hostRegs[r]

/-- `WR addr, v`. A host write begins a new moment for the unspecified reads, whether or not it has an effect (R50). -/
def writeTurn (a : Addr) (v : Source) (s : State) : State := hostWrite a (sourceValue s v) (newMoment s)

/-- The moment after a read: unspecified values are drawn "at each read" while BUSY = 1 (R145), and two reads with no
write or completion between them return the same value while BUSY = 0 (R50; log 4). -/
def afterRead (s : State) : State := if s.busy then newMoment s else s

/-- `RD rN, addr`. The device does not change (R50). -/
def readTurn (r : Fin 8) (a : Addr) (s : State) : State :=
  { afterRead s with hostRegs := s.hostRegs.set r (hostRead a s) }

/-- `WAIT`: `loop: RD r7, 0x000008; if (r7 & 1) != 0 goto loop`. Bit 0 of the word read is BUSY (`waitTurn_bit` in
Laws), so the loop goes on exactly while BUSY = 1. A poll that finds BUSY = 1 is followed by the engine's turn and the
next poll: the shortest run. Longer ones have more polls before it (R147; log 10). -/
def waitTurn (s : State) : State :=
  let polled := readTurn 7 statusAddr s
  if s.busy then { polled with script := .engine :: .wait :: polled.script } else polled

/-- `if (rN & mask) != 0 goto`, over the next `count` turns (95_test_vectors.md P3). -/
def skipTurn (r : Fin 8) (mask : Word) (count : Nat) (s : State) : State :=
  if s.hostRegs[r] &&& mask ≠ 0 then { s with script := s.script.drop count } else s

/-- The RESET input, which also begins a new moment for the unspecified reads (R137). -/
def resetTurn (s : State) : State := newMoment (resetDevice s)

/-- One turn, already taken off the script. -/
def takeTurn (t : Turn) (s : State) : Host.Outcome State Fault Refusal :=
  match t with
  | .write a v => .next (writeTurn a v s)
  | .read r a => .next (readTurn r a s)
  | .wait => .next (waitTurn s)
  | .skipIfSet r mask count => .next (skipTurn r mask count s)
  | .engine => engineTurn s
  | .reset => .next (resetTurn s)

/-! ### The host pseudo-instructions of R74 -/

/-- `WR addr, v`. -/
def wr (a : Addr) (v : Word) : List Turn := [.write a (.imm v)]

/-- `RD rN, addr`. -/
def rd (r : Fin 8) (a : Addr) : List Turn := [.read r a]

/-- `.word n` issued: `WR 0x000004, n` (R73). -/
def issueWord (w : Word) : List Turn := wr ctrlAddr w

/-- `ISSUE cmd`: `WR 0x000004, word(cmd)`. -/
def issue (i : Instr) : List Turn := issueWord (encode i)

/-- `RUN cmd`: `ISSUE cmd; WAIT`. -/
def runCommand (i : Instr) : List Turn := issue i ++ [.wait]

/-- `RUN .word n`. -/
def runWord (w : Word) : List Turn := issueWord w ++ [.wait]

/-- The writes of `LOADIN` from entry `i` on. -/
def loadEntries : Nat → List Word → List Turn
  | _, [] => []
  | i, v :: vs => wr (inAddr i) v ++ loadEntries (i + 1) vs

/-- `LOADIN v0, ..., v(n-1)`: the entries in order, then IN_LEN. -/
def loadIn (vs : List Word) : List Turn := loadEntries 0 vs ++ wr inLenAddr (BitVec.ofNat 32 vs.length)

/-- `COPYOUT n`: each output entry through r6 to the input entry of its index, then IN_LEN. -/
def copyOut (n : Nat) : List Turn :=
  (List.range n).flatMap (fun k => [.read 6 (outAddr k), .write (inAddr k) (.reg 6)])
    ++ wr inLenAddr (BitVec.ofNat 32 n)

end Sys2Proof.Machine
end

