-- ==== Sys2Proof/Machine/Step.lean ====
section
/-! DEFINITION. One step of a run: an atomic host access, completion step or reset (20_memory.md R51). -/

namespace Sys2Proof.Machine

/-- The next turn of the script; with none left, the engine's turn, so that an accepted command completes unless a reset
comes first (R147). An idle device with no turn left stays as it is: "it holds all its state until reset" (R136). -/
def step (s : State) : Host.Outcome State Fault Refusal :=
  match s.script with
  | []      => engineTurn s
  | t :: ts => takeTurn t { s with script := ts }

/-- The state in which the very next step is the completion step of the word `w` of `nbits` bits: the word accepted (R75)
and the engine's turn next (log 2). -/
def State.withFetchWord (s : State) (nbits w : Nat) : State :=
  { acceptCommand (BitVec.ofNat 32 (w % 2 ^ nbits)) s with script := .engine :: s.script }

end Sys2Proof.Machine
end

