-- ==== Sys2Proof/Safety.lean ====
section
/-! DEFINITION. What counts as a safe run: the machine goes on, and every state keeps the invariant. -/

namespace Sys2Proof.Machine

/-- The machine does not stop in this state (R42, R127). -/
def Proceeds (s : State) : Prop := ∃ t, step s = .next t

/-- What the rules say holds of a device at all times. -/
structure Invariant (s : State) : Prop where
  /-- The parameters are those of a device that was built (R7, R94, R95). -/
  legal        : configLegal s.cfg = true
  /-- IN_MEM is canonical: entries 0 to IN_DEPTH - 1, each listed at most once (R31). -/
  inCanonical  : Memory.wf s.cfg.inDepth s.inMem = true
  /-- OUT_MEM is canonical: entries 0 to OUT_DEPTH - 1, each listed at most once (R32). -/
  outCanonical : Memory.wf s.cfg.outDepth s.outMem = true
  /-- OUT_LEN "is never above OUT_DEPTH" (R26). -/
  outBounded   : s.outLen.toNat ≤ s.cfg.outDepth
  /-- Every entry below OUT_LEN holds a result word (R41). -/
  outHeld      : ∀ k, k < s.outLen.toNat → (Memory.lookup s.outMem k).isSome = true
  /-- DONE is 0 in the BUSY window (R19, R145). -/
  busyNotDone  : s.busy = true → s.done = false
  /-- ERR is 1 exactly when ERRCODE names an error (R20, R22, R119). -/
  errHasCode   : s.err = true ↔ s.errCode ≠ 0
  /-- "Codes 0xB to 0xF are never written" (R22). -/
  codeNamed    : s.errCode.toNat ≤ 0xA
  /-- ERRPOS is 0 unless an error is reported (R24). -/
  posOfError   : s.err = false → s.errPos = 0
  /-- "Bit 31 (HIT) is 1 exactly when it holds a result" (R27): LKRES is 0 or has HIT. -/
  hitOrZero    : s.lkRes = 0 ∨ s.lkRes.getLsbD 31 = true

end Sys2Proof.Machine
end

