-- ==== Sys2Proof/Certificates/Slice0/Obligations.lean ====
section
/-! DEFINITION. The statements about the B32K-RE. Each docstring names the rule of spec/ it formalises. The terms they are
made of (R86's closed form, the outcomes of a command) come first. -/

namespace Sys2Proof.Claims

open Sys2Proof.Machine

/-! ### R86: the stream and its groups -/

/-- T: the number of bits of the stream (R86). -/
def totalBits (L inW lastW : Nat) : Nat := if L = 0 then 0 else (L - 1) * inW + lastW

/-- `ceil(a / b)`. -/
def ceilDiv (a b : Nat) : Nat := (a + b - 1) / b

/-- w_i: the width of element i of L (R86). -/
def elementWidth (L inW lastW i : Nat) : Nat := if i + 1 = L then lastW else inW

/-- s[n]: bit n of the stream, `elems[i][w_i - 1 - m]` for `n = i*in_w + m` (R86). -/
def streamBit (elem : Nat → Nat) (L inW lastW n : Nat) : Nat :=
  elem (n / inW) / 2 ^ (elementWidth L inW lastW (n / inW) - 1 - n % inW) % 2

/-- The sum over m < width of `bit[start + m] * 2^(width - 1 - m)` (R86). -/
def bitsValue (bit : Nat → Nat) (start width : Nat) : Nat :=
  ∑ m ∈ Finset.range width, bit (start + m) * 2 ^ (width - 1 - m)

/-- W_k: the width of group k of the G groups of T bits (R86). -/
def groupWidth (T outW k : Nat) : Nat :=
  if k + 1 < ceilDiv T outW then outW else T - (ceilDiv T outW - 1) * outW

/-- V_k: the value of group k (R86). -/
def groupValue (elem : Nat → Nat) (L inW outW lastW k : Nat) : Nat :=
  bitsValue (streamBit elem L inW lastW) (k * outW) (groupWidth (totalBits L inW lastW) outW k)

/-! ### The outcomes of a command (R77, R121) -/

/-- A buffer command that succeeded with the n result words `word 0` to `word (n-1)`: these entries, OUT_LEN, the report,
BUSY and DONE are written; entries at and above n and everything else keep their values (R77). -/
def BufferDone (s t : State) (n : Nat) (word : Nat → Word) : Prop :=
  t = { s with
    outMem := t.outMem, outLen := t.outLen, err := false, errCode := 0, errPos := 0, busy := false, done := true } ∧
  t.outLen.toNat = n ∧
  (∀ k, k < n → Memory.lookup t.outMem k = some (word k)) ∧
  ∀ k, n ≤ k → Memory.lookup t.outMem k = Memory.lookup s.outMem k

/-- A buffer command that raised an error: OUT_LEN is 0 and OUT_MEM is unspecified; everything else but the report, BUSY
and DONE keeps its value (R121). -/
def BufferFailed (s t : State) (code : BitVec 4) (pos : Word) : Prop :=
  t = { s with
    outMem := t.outMem, outLen := 0, err := true, errCode := code, errPos := pos, busy := false, done := true }

/-- A lookup command that succeeded with the result word (R77). -/
def LookupDone (s t : State) (result : Word) : Prop :=
  t = { s with lkRes := result, err := false, errCode := 0, errPos := 0, busy := false, done := true }

/-- A lookup command that raised an error, at no position (R121). -/
def LookupFailed (s t : State) (code : BitVec 4) : Prop :=
  t = { s with lkRes := 0, err := true, errCode := code, errPos := 0xFFFFFFFF, busy := false, done := true }

/-- No host read of an output entry depends on what OUT_MEM holds: every entry is unspecified (R32, R122). -/
def outputIsUnspecified (t : State) : Prop :=
  ∀ (k : Nat) (m : Memory), k < 2 ^ 20 →
    hostRead (BitVec.ofNat 24 (0x800000 + 4 * k)) { t with outMem := m } =
      hostRead (BitVec.ofNat 24 (0x800000 + 4 * k)) t

/-- RESIZE, ENCODE and DECODE: the buffer commands (R77). -/
def isBufferCommand : Instr → Bool
  | .resize _ _ _ => true
  | .encode => true
  | .decode => true
  | .nop => false
  | .fwd _ _ => false
  | .rev _ => false
  | .clear => false

/-- FWD and REV: the lookup commands (R77). -/
def isLookupCommand : Instr → Bool
  | .fwd _ _ => true
  | .rev _ => true
  | .nop => false
  | .resize _ _ _ => false
  | .encode => false
  | .decode => false
  | .clear => false

/-! ### R63: the opcode map -/

/-- The rows of R63 for the word w: mask, match, and the command with its operands (R66 to R68). -/
def opcodeMap (w : Nat) : List (Nat × Nat × Instr) :=
  [(0xFFFFFFFF, 0x00000000, .nop),
   (0xFF8000FF, 0x00000001, .resize (w / 2 ^ 8 % 32) (w / 2 ^ 13 % 32) (w / 2 ^ 18 % 32)),
   (0xFFFFFFFF, 0x00000002, .encode),
   (0xFFFFFFFF, 0x00000003, .decode),
   (0xFF80000F, 0x00000004, .fwd (w / 2 ^ 4 % 16) (w / 2 ^ 8 % 32768)),
   (0xE00000FF, 0x00000005, .rev (w / 2 ^ 8 % 2097152)),
   (0xFFFFFFFF, 0x00000006, .clear)]

/-- The codes a command can write under WF_ROM (R119). -/
def reachableCodes : Instr → List (BitVec 4)
  | .resize _ _ _ => [0x0, 0x8, 0x9, 0xA]
  | .encode => [0x0, 0x9, 0xA]
  | .decode => [0x0, 0x4, 0x5, 0x6, 0x9, 0xA]
  | .fwd _ _ => [0x0, 0x2, 0x3]
  | .rev _ => [0x0, 0x4, 0x6]
  | .clear => [0x0]
  | .nop => []

/-! ### ENCODE and DECODE (R103, R105, R111) -/

/-- G: the number of codepoints of L bytes (R107). -/
def codepointCount (L : Nat) : Nat := ceilDiv (8 * L) 15

/-- The tier of codepoint k: 1 for the final one when its group has at most 7 bits, else 0 (R105). -/
def codepointTier (L k : Nat) : Nat :=
  if k + 1 = codepointCount L ∧ 8 * L - 15 * (codepointCount L - 1) ≤ 7 then 1 else 0

/-- Bit n of the data bits followed by 1-bits (R104). -/
def paddedBit (byte : Nat → Nat) (L n : Nat) : Nat := if n < 8 * L then streamBit byte L 8 8 n else 1

/-- The value of codepoint k: 15 bits of the padded stream, 7 for tier 1 (R105). -/
def codepointValue (byte : Nat → Nat) (L k : Nat) : Nat :=
  bitsValue (paddedBit byte L) (15 * k) (15 - 8 * codepointTier L k)

/-- `last_w` of a text whose characters have these tiers: 7 if the last is of tier 1, else 15 (R112, R116). -/
def textLastW (tier : Nat → Nat) (L : Nat) : Nat := if L ≠ 0 ∧ tier (L - 1) = 1 then 7 else 15

/-- `T = 15*(L-1) + last_w`, 0 for the empty text (R116). -/
def textBits (tier : Nat → Nat) (L : Nat) : Nat := totalBits L 15 (textLastW tier L)

end Sys2Proof.Claims

open Sys2Proof Sys2Proof.Machine Sys2Proof.Claims

/-! ### Encoding -/

/-- Decode and encode agree on every well-formed command, every operand at every value its field admits (R60 to R68,
R73). -/
def Obligations.EncodeThenDecode : Prop :=
  ∀ i : Instr, i.wf = true → decodeWord (encode i) = .ok i

/-- A legal word is the encoding of exactly the command it decodes to: no bit of a legal word is dropped (R57 to R68). -/
def Obligations.DecodeThenEncode : Prop :=
  ∀ (w : Word) (i : Instr), decodeWord w = .ok i → i.wf = true ∧ encode i = w

/-- R63, R64: a word that matches a row of the map is that command, at most one row matches a word, and a word that
matches none is an illegal command word. -/
def Obligations.OpcodeMapSelectsTheCommand : Prop :=
  ∀ w : Word,
    (∀ row ∈ opcodeMap w.toNat, w.toNat &&& row.1 = row.2.1 → decodeWord w = .ok row.2.2) ∧
    ((opcodeMap w.toNat).Pairwise fun r q => ¬ (w.toNat &&& r.1 = r.2.1 ∧ w.toNat &&& q.1 = q.2.1)) ∧
    ((∀ row ∈ opcodeMap w.toNat, w.toNat &&& row.1 ≠ row.2.1) → ∃ e, decodeWord w = .error e)

/-- Words written out from the encodings of R59 to R62 and R73 decode to the commands they stand for, and illegal ones
are refused by name. -/
def Obligations.WordsOfTheSpecDecode : Prop :=
  decodeWord 0x00000000 = .ok .nop ∧
  decodeWord 0b00000000001000011110100000000001 = .ok (.resize 8 15 8) ∧
  decodeWord 0x00000002 = .ok .encode ∧
  decodeWord 0x00000003 = .ok .decode ∧
  decodeWord 0b00000000001001000011001000000100 = .ok (.fwd 0 9266) ∧
  decodeWord 0b00000000000000011011111100000101 = .ok (.rev 0x1BF) ∧
  decodeWord 0x00000006 = .ok .clear ∧
  decodeWord 0x00000007 = .error (.reservedOpcode 7) ∧
  decodeWord 0x00000010 = .error (.reservedBits 0) ∧
  decodeWord 0x00A1E801 = .error (.reservedBits 1)

/-! ### The lifecycle of a command -/

/-- R75: a CTRL write is accepted while BUSY = 0, and dropped with HAZ set while BUSY = 1; nothing else changes. -/
def Obligations.CtrlWriteIsAcceptedOrDropped : Prop :=
  ∀ (s : State) (w : Word),
    (s.busy = true → hostWrite 0x000004 w s = { s with haz := true }) ∧
    (s.busy = false → hostWrite 0x000004 w s = { s with cmdl := w, busy := true, done := false })

/-- A step runs the decoded command: when a command is in flight, CMDL decodes to i, and the engine moves next (its turn
is the script's next, or the script is empty), the step is exec of i at the state with that turn taken off and a new
moment begun. So is the step after `withFetchWord` stores a word that decodes to i. Of this, R76 says that the completion
step decodes CMDL and runs the command. The model's choice are the list of turns, that the engine moves when it is empty,
and what `withFetchWord` stands for (log 2, DESIGN CHOICE); its reading is the new moment, `draws + 1` (log 4, DEDUCED). -/
def Obligations.StepRunsTheDecodedCommand : Prop :=
  (∀ (s : State) (i : Instr), s.busy = true → decodeWord s.cmdl = .ok i →
    (s.script = [] → step s = exec i { s with draws := s.draws + 1 }) ∧
    (∀ ts, s.script = .engine :: ts → step s = exec i { s with script := ts, draws := s.draws + 1 })) ∧
  (∀ (s : State) (w : Nat) (i : Instr), w < 2 ^ 32 → decodeTableWord 32 w = some i →
    step (s.withFetchWord 32 w) =
      exec i { s with cmdl := BitVec.ofNat 32 w, busy := true, done := false, draws := s.draws + 1 })

/-- R76: the engine "never starts a command the host did not issue": with BUSY = 0 its turn changes nothing. That the
engine moves when no turn is left is the model's choice (log 2, DESIGN CHOICE). -/
def Obligations.IdleEngineDoesNothing : Prop :=
  ∀ s : State, s.busy = false →
    (s.script = [] → step s = .next s) ∧
    (∀ ts, s.script = .engine :: ts → step s = .next { s with script := ts })

/-- R81: an illegal word is accepted like a legal one, holds BUSY until its completion step (a CTRL write during that
window is dropped and sets HAZ), and completes with IllegalCommand: ERR, ERRCODE and ERRPOS change, and OUT_LEN, OUT_MEM,
LKRES and everything else but BUSY and DONE are unchanged. -/
def Obligations.IllegalWordCompletesWithAnError : Prop :=
  ∀ (s : State) (w v : Word), s.busy = false → (∀ row ∈ opcodeMap w.toNat, w.toNat &&& row.1 ≠ row.2.1) →
    hostWrite 0x000004 w s = { s with cmdl := w, busy := true, done := false } ∧
    hostWrite 0x000004 v (hostWrite 0x000004 w s) =
      { s with cmdl := w, busy := true, done := false, haz := true } ∧
    completeCommand (hostWrite 0x000004 w s) =
      .next { s with
        cmdl := w, busy := false, done := true, err := true, errCode := 0x7, errPos := 0xFFFFFFFF }

/-! ### NOP and CLEAR -/

/-- R79: NOP's word is 0x0000_0000 alone, any other word with OP = 0x0 is illegal, and its completion writes BUSY and
DONE and nothing else, which raises IRQ when IE = 1. -/
def Obligations.NopWritesBusyAndDoneOnly : Prop :=
  (∀ w : Word, decodeWord w = .ok .nop ↔ w = 0) ∧
  (∀ w : Word, w.toNat % 16 = 0 → w ≠ 0 → ∃ e, decodeWord w = .error e) ∧
  ∀ s : State, exec .nop s = .next { s with busy := false, done := true } ∧
    irq { s with busy := false, done := true } = s.ie

/-- R80: CLEAR's word is 0x0000_0006 alone, and its completion zeroes the report, OUT_LEN, LKRES and HAZ; IN_LEN, IN_MEM,
IRQEN, the ROM and the entries of OUT_MEM are untouched, and no read of an output entry depends on them any more. -/
def Obligations.ClearZeroesReportAndResults : Prop :=
  (∀ w : Word, decodeWord w = .ok .clear ↔ w = 6) ∧
  ∀ s : State,
    let t := { s with
      err := false, errCode := 0, errPos := 0, outLen := 0, lkRes := 0, haz := false, busy := false, done := true }
    exec .clear s = .next t ∧ outputIsUnspecified t

/-! ### The regrouper and RESIZE -/

/-- R86: the closed form of Regroup. -/
def Obligations.RegroupClosedForm : Prop :=
  ∀ (elems : List Nat) (inW outW lastW : Nat),
    1 ≤ inW → inW ≤ 16 → 1 ≤ outW → outW ≤ 16 → 1 ≤ lastW → lastW ≤ inW →
    (regroup elems inW outW lastW).length = ceilDiv (totalBits elems.length inW lastW) outW ∧
    ∀ k, k < ceilDiv (totalBits elems.length inW lastW) outW →
      (regroup elems inW outW lastW)[k]? =
        some ⟨groupValue (fun i => elems.getD i 0) elems.length inW outW lastW k,
          groupWidth (totalBits elems.length inW lastW) outW k⟩

/-- R85: "Regroup gives the same result for elements that agree in those bits", the bits below each element's width. -/
def Obligations.RegroupReadsOnlyValidBits : Prop :=
  ∀ (es fs : List Nat) (inW outW lastW : Nat),
    1 ≤ inW → inW ≤ 16 → 1 ≤ outW → outW ≤ 16 → 1 ≤ lastW → lastW ≤ inW → es.length = fs.length →
    (∀ i, i < es.length →
      es.getD i 0 % 2 ^ elementWidth es.length inW lastW i = fs.getD i 0 % 2 ^ elementWidth es.length inW lastW i) →
    regroup es inW outW lastW = regroup fs inW outW lastW

/-- R87: every group but the last has width out_w, the last has width 1 to out_w, and a group narrower than out_w is
emitted exactly when T is not a multiple of out_w, and then it is the last. -/
def Obligations.RegroupGroupSizes : Prop :=
  ∀ (elems : List Nat) (inW outW lastW : Nat),
    1 ≤ inW → inW ≤ 16 → 1 ≤ outW → outW ≤ 16 → 1 ≤ lastW → lastW ≤ inW →
    (∀ k g, (regroup elems inW outW lastW)[k]? = some g →
      1 ≤ g.width ∧ g.width ≤ outW ∧ (k + 1 < (regroup elems inW outW lastW).length → g.width = outW)) ∧
    ((∃ g ∈ regroup elems inW outW lastW, g.width < outW) ↔ totalBits elems.length inW lastW % outW ≠ 0)

/-- R89: before each shift NHELD < out_w and ACC < 2^NHELD, the `mod 2^16` of R84 never removes a bit, and every emitted
value is below 2^width. The shifts are those of any sequence of bits from the start of a regrouping. With out_w = 17 the
17th bit would be lost, and RESIZE refuses such a width. -/
def Obligations.AccumulatorNeverWraps : Prop :=
  (∀ (outW : Nat) (bits : List Nat), 1 ≤ outW → outW ≤ 16 → (∀ b ∈ bits, b < 2) →
    let r := bits.foldl (shiftIn outW) Regrouper.start
    r.nheld < outW ∧ r.acc < 2 ^ r.nheld ∧
    (∀ b, b < 2 → (r.acc <<< 1 ||| b) < 2 ^ (r.nheld + 1) ∧ (r.acc <<< 1 ||| b) % 2 ^ 16 = r.acc <<< 1 ||| b) ∧
    ∀ g ∈ emitPartial r, g.value < 2 ^ g.width) ∧
  emitPartial ((1 :: List.replicate 16 0).foldl (shiftIn 17) Regrouper.start) = [⟨0, 17⟩] ∧
  ∀ (inW outW lastW : Nat) (s : State), 17 ≤ outW →
    ∃ t, exec (.resize inW outW lastW) s = .next t ∧ t.err = true ∧ t.errCode = 0x8

/-- R90, R91: RESIZE, its operands from the command word, its errors in their order and its result in R86's closed
form. -/
def Obligations.ResizeCommand : Prop :=
  (∀ w : Word, w.toNat &&& 0xFF8000FF = 0x00000001 →
    decodeWord w = .ok (.resize (w.toNat / 2 ^ 8 % 32) (w.toNat / 2 ^ 13 % 32) (w.toNat / 2 ^ 18 % 32))) ∧
  ∀ (inW outW lastW : Nat) (s : State), configLegal s.cfg = true →
    let T := totalBits s.inLen.toNat inW lastW
    ∃ t, exec (.resize inW outW lastW) s = .next t ∧
      if ¬ (1 ≤ inW ∧ inW ≤ 16 ∧ 1 ≤ outW ∧ outW ≤ 16 ∧ 1 ≤ lastW ∧ lastW ≤ inW) then
        BufferFailed s t 0x8 0xFFFFFFFF
      else if s.cfg.inDepth < s.inLen.toNat then BufferFailed s t 0x9 0xFFFFFFFF
      else if s.cfg.outDepth < ceilDiv T outW then BufferFailed s t 0xA 0xFFFFFFFF
      else
        BufferDone s t (ceilDiv T outW) fun k =>
          BitVec.ofNat 32 (groupWidth T outW k * 2 ^ 16 +
            groupValue (fun i => (inEntry s i).toNat) s.inLen.toNat inW outW lastW k)

/-- R88: the regrouping of no elements is empty, so IN_LEN = 0 gives an empty result and success, whatever the legal
widths are. -/
def Obligations.ResizeOfEmptyInput : Prop :=
  ∀ (inW outW lastW : Nat) (s : State), s.inLen = 0 →
    1 ≤ inW → inW ≤ 16 → 1 ≤ outW → outW ≤ 16 → 1 ≤ lastW → lastW ≤ inW →
    regroup [] inW outW lastW = [] ∧ ∃ t, exec (.resize inW outW lastW) s = .next t ∧ t.outLen = 0 ∧ t.err = false ∧ t.errPos = 0 ∧
      ∀ k, Memory.lookup t.outMem k = Memory.lookup s.outMem k

/-! ### The ROM, FWD and REV -/

/-- R94: WF_ROM is W1 to W4, W4 over all codepoints of all blocks of both tiers; and it makes BLOCK_SIZE a power of two
from 1 to 128. -/
def Obligations.WfRomIsItsFourConditions : Prop :=
  ∀ c : Config,
    (romWf c = true ↔
      (∀ b ∈ c.blockStart0 ++ c.blockStart1, b ≤ 0xFFFF ∧ ¬ (0xD800 ≤ b ∧ b ≤ 0xDFFF)) ∧
      (1 ≤ c.blockSize ∧ c.blockStart0.length * c.blockSize = 32768 ∧ c.blockStart1.length * c.blockSize = 128) ∧
      (∀ b ∈ c.blockStart0 ++ c.blockStart1, ∀ o, o < c.blockSize →
        b + o ≤ 0xFFFF ∧ ¬ (0xD800 ≤ b + o ∧ b + o ≤ 0xDFFF)) ∧
      (∀ i j a b : Nat, i ≠ j → (c.blockStart0 ++ c.blockStart1)[i]? = some a →
        (c.blockStart0 ++ c.blockStart1)[j]? = some b →
        ∀ o p, o < c.blockSize → p < c.blockSize → a + o ≠ b + p)) ∧
    (romWf c = true → ∃ e, e ≤ 7 ∧ c.blockSize = 2 ^ e)

/-- R7, R95: a parameter set outside R7 describes no device and no state is built for it; a legal one powers up in the
reset state. -/
def Obligations.OnlyLegalParametersPowerUp : Prop :=
  ∀ c : Config,
    (romWf c = true ∧ 1 ≤ c.inDepth ∧ c.inDepth ≤ 2 ^ 20 ∧ 1 ≤ c.outDepth ∧ c.outDepth ≤ 2 ^ 20 →
      powerUp c = .next (State.resetOf c)) ∧
    (¬ (romWf c = true ∧ 1 ≤ c.inDepth ∧ c.inDepth ≤ 2 ^ 20 ∧ 1 ≤ c.outDepth ∧ c.outDepth ≤ 2 ^ 20) →
      powerUp c = .refused .malformedConfig)

/-- R96: Fwd is none outside the tiers and outside a tier's domain; under WF_ROM it is the block's codepoint for every
other value, at most 0xFFFF. -/
def Obligations.FwdOnEveryDomain : Prop :=
  ∀ (c : Config) (t v : Nat), romWf c = true →
    (2 ≤ t → fwd c t v = none) ∧
    (t < 2 → 2 ^ (15 - 8 * t) ≤ v → fwd c t v = none) ∧
    (t < 2 → v < 2 ^ (15 - 8 * t) →
      ∃ b, (if t = 0 then c.blockStart0 else c.blockStart1)[v / c.blockSize]? = some b ∧
        fwd c t v = some (b + v % c.blockSize) ∧ b + v % c.blockSize ≤ 0xFFFF)

/-- R98: under WF_ROM the two lookups are inverse. -/
def Obligations.FwdAndRevAreInverse : Prop :=
  ∀ c : Config, romWf c = true →
    (∀ t v, t < 2 → v < 2 ^ (15 - 8 * t) → ∃ cp, fwd c t v = some cp ∧ rev c cp = some (t, v)) ∧
    ∀ cp t v, rev c cp = some (t, v) → fwd c t v = some cp

/-- R99: under WF_ROM no codepoint is in both tiers; Rev maps 32768 codepoints to tier 0 and 128 to tier 1. -/
def Obligations.TiersShareNoCodepoint : Prop :=
  ∀ c : Config, romWf c = true →
    (∀ v u cp, fwd c 0 v = some cp → fwd c 1 u ≠ some cp) ∧
    ((Finset.range 0x10000).filter fun cp => (rev c cp).map Prod.fst = some 0).card = 32768 ∧
    ((Finset.range 0x10000).filter fun cp => (rev c cp).map Prod.fst = some 1).card = 128 ∧
    ∀ cp, 0xFFFF < cp → rev c cp = none

/-- R101: FWD, its operands from the command word, for every operand its word can carry. -/
def Obligations.FwdCommand : Prop :=
  (∀ w : Word, w.toNat &&& 0xFF80000F = 0x00000004 →
    decodeWord w = .ok (.fwd (w.toNat / 2 ^ 4 % 16) (w.toNat / 2 ^ 8 % 32768))) ∧
  ∀ (tier value : Nat) (s : State), configLegal s.cfg = true → tier < 16 → value < 32768 →
    ∃ t, exec (.fwd tier value) s = .next t ∧
      if 2 ≤ tier then LookupFailed s t 0x2
      else if tier = 1 ∧ 128 ≤ value then LookupFailed s t 0x3
      else ∃ b, (if tier = 0 then s.cfg.blockStart0 else s.cfg.blockStart1)[value / s.cfg.blockSize]? = some b ∧
        LookupDone s t (BitVec.ofNat 32 (2 ^ 31 + (b + value % s.cfg.blockSize)))

/-- R102: REV, its operand from the command word, for every operand its word can carry: the width first, then the block
that holds the codepoint, or none in either tier (every surrogate is in none). -/
def Obligations.RevCommand : Prop :=
  (∀ w : Word, w.toNat &&& 0xE00000FF = 0x00000005 → decodeWord w = .ok (.rev (w.toNat / 2 ^ 8 % 2097152))) ∧
  ∀ (cp : Nat) (s : State), configLegal s.cfg = true → cp < 2 ^ 21 →
    ∃ t, exec (.rev cp) s = .next t ∧
      (0xFFFF < cp → LookupFailed s t 0x4) ∧
      (cp ≤ 0xFFFF → (∀ b ∈ s.cfg.blockStart0 ++ s.cfg.blockStart1, ¬ (b ≤ cp ∧ cp < b + s.cfg.blockSize)) →
        LookupFailed s t 0x6) ∧
      (0xD800 ≤ cp → cp ≤ 0xDFFF → LookupFailed s t 0x6) ∧
      (∀ i b, s.cfg.blockStart0[i]? = some b → b ≤ cp → cp < b + s.cfg.blockSize →
        LookupDone s t (BitVec.ofNat 32 (2 ^ 31 + (i * s.cfg.blockSize + (cp - b))))) ∧
      (∀ i b, s.cfg.blockStart1[i]? = some b → b ≤ cp → cp < b + s.cfg.blockSize →
        LookupDone s t (BitVec.ofNat 32 (2 ^ 31 + 2 ^ 16 + (i * s.cfg.blockSize + (cp - b)))))

/-! ### ENCODE and DECODE -/

/-- R104, R105: the padding, tier and padded value of every final width; and (R106) the padded value lies in its tier's
domain, so under WF_ROM its forward lookup is defined. -/
def Obligations.PaddingAndTierOfEveryWidth : Prop :=
  ∀ v w : Nat, 1 ≤ w → w ≤ 15 → v < 2 ^ w →
    padBits w < 8 ∧
    (∀ c : Config, romWf c = true → ∃ cp, fwd c (tierAndValue ⟨v, w⟩).1 (tierAndValue ⟨v, w⟩).2 = some cp) ∧
    if w = 15 then tierAndValue ⟨v, w⟩ = (0, v)
    else if 8 ≤ w then
      tierAndValue ⟨v, w⟩ = (0, v * 2 ^ (15 - w) + (2 ^ (15 - w) - 1)) ∧
        v * 2 ^ (15 - w) + (2 ^ (15 - w) - 1) < 2 ^ 15 ∧ padBits w = 15 - w
    else
      tierAndValue ⟨v, w⟩ = (1, v * 2 ^ (7 - w) + (2 ^ (7 - w) - 1)) ∧
        v * 2 ^ (7 - w) + (2 ^ (7 - w) - 1) < 2 ^ 7 ∧ padBits w = 7 - w

/-- R103, R107, R109: ENCODE. Under WF_ROM it fails only with InputLength or OutputCapacity; else it writes
G = ceil(8L/15) codepoints, each the forward lookup of its tier and of its bits of the data stream padded with 1-bits. -/
def Obligations.EncodeCommand : Prop :=
  ∀ s : State, configLegal s.cfg = true →
    ∃ t, exec .encode s = .next t ∧
      if s.cfg.inDepth < s.inLen.toNat then BufferFailed s t 0x9 0xFFFFFFFF
      else if s.cfg.outDepth < codepointCount s.inLen.toNat then BufferFailed s t 0xA 0xFFFFFFFF
      else ∃ cp : Nat → Nat,
        (∀ k, k < codepointCount s.inLen.toNat →
          fwd s.cfg (codepointTier s.inLen.toNat k)
            (codepointValue (fun i => (inEntry s i).toNat % 256) s.inLen.toNat k) = some (cp k)) ∧
        BufferDone s t (codepointCount s.inLen.toNat) fun k => BitVec.ofNat 32 (cp k)

/-- R108: the final codepoint is from tier 1 exactly when L mod 15 is even and nonzero; then 8L mod 15 is 1 to 7. -/
def Obligations.EncodeFinalTier : Prop :=
  (∀ L : Nat, L % 15 ≠ 0 → L % 15 % 2 = 0 → 1 ≤ 8 * L % 15 ∧ 8 * L % 15 ≤ 7) ∧
  ∀ s : State, configLegal s.cfg = true → 1 ≤ s.inLen.toNat → s.inLen.toNat ≤ s.cfg.inDepth →
    codepointCount s.inLen.toNat ≤ s.cfg.outDepth →
    ∃ t w v, exec .encode s = .next t ∧ Memory.lookup t.outMem (t.outLen.toNat - 1) = some w ∧
      rev s.cfg w.toNat =
        some (if s.inLen.toNat % 15 ≠ 0 ∧ s.inLen.toNat % 15 % 2 = 0 then 1 else 0, v)

/-- R111, R114, R116: DECODE of a text of codepoints that are all in the ROM, with a tier-1 codepoint at most in the last
place, writes floor(T/8) bytes, the full bytes of the recorded values' stream, or fails with OutputCapacity. -/
def Obligations.DecodeOfAText : Prop :=
  ∀ (s : State) (tier value : Nat → Nat), configLegal s.cfg = true → s.inLen.toNat ≤ s.cfg.inDepth →
    (∀ p, p < s.inLen.toNat → rev s.cfg (inEntry s p).toNat = some (tier p, value p)) →
    (∀ p, p + 1 < s.inLen.toNat → tier p = 0) →
    ∃ t, exec .decode s = .next t ∧
      if s.cfg.outDepth < textBits tier s.inLen.toNat / 8 then BufferFailed s t 0xA 0xFFFFFFFF
      else BufferDone s t (textBits tier s.inLen.toNat / 8) fun k =>
        BitVec.ofNat 32 (bitsValue
          (streamBit value s.inLen.toNat 15 (textLastW tier s.inLen.toNat)) (8 * k) 8)

/-- R113, R118, R123, R124: DECODE reports InputLength before any element; else the first failing position, and there
InvalidCharacterWidth for every value above 0xFFFF, InvalidCharacter for a codepoint in no tier (every surrogate is in
none), MisplacedPadding for a tier-1 codepoint that is not the last. -/
def Obligations.DecodeFirstError : Prop :=
  ∀ s : State, configLegal s.cfg = true →
    (s.cfg.inDepth < s.inLen.toNat → ∃ t, exec .decode s = .next t ∧ BufferFailed s t 0x9 0xFFFFFFFF) ∧
    (s.inLen.toNat ≤ s.cfg.inDepth → ∀ p, p < s.inLen.toNat →
      (∀ q, q < p → ∃ v, rev s.cfg (inEntry s q).toNat = some (0, v)) →
      ∃ t, exec .decode s = .next t ∧
        (0xFFFF < (inEntry s p).toNat → BufferFailed s t 0x4 (BitVec.ofNat 32 p)) ∧
        ((inEntry s p).toNat ≤ 0xFFFF → rev s.cfg (inEntry s p).toNat = none →
          BufferFailed s t 0x6 (BitVec.ofNat 32 p)) ∧
        (0xD800 ≤ (inEntry s p).toNat → (inEntry s p).toNat ≤ 0xDFFF → BufferFailed s t 0x6 (BitVec.ofNat 32 p)) ∧
        (∀ v, rev s.cfg (inEntry s p).toNat = some (1, v) → p + 1 < s.inLen.toNat →
          BufferFailed s t 0x5 (BitVec.ofNat 32 p)))

/-- R117, the round trip: ENCODE of L bytes, then DECODE of its G codepoints from any state of the same device, succeeds
and gives exactly the L bytes. -/
def Obligations.DecodeOfEncodeIsIdentity : Prop :=
  ∀ s u : State, configLegal s.cfg = true → u.cfg = s.cfg →
    s.inLen.toNat ≤ s.cfg.inDepth → s.inLen.toNat ≤ s.cfg.outDepth →
    codepointCount s.inLen.toNat ≤ s.cfg.inDepth → codepointCount s.inLen.toNat ≤ s.cfg.outDepth →
    ∃ t, exec .encode s = .next t ∧ t.err = false ∧ t.outLen.toNat = codepointCount s.inLen.toNat ∧
      (u.inLen = t.outLen →
        (∀ k, k < t.outLen.toNat → Memory.lookup t.outMem k = some (inEntry u k)) →
        ∃ v, exec .decode u = .next v ∧
          BufferDone u v s.inLen.toNat fun k => BitVec.ofNat 32 ((inEntry s k).toNat % 256))

/-! ### Every command: frames, errors, dependence -/

/-- What every command leaves unchanged: the configuration and ROM, IN_LEN, IN_MEM, IRQEN, CMDL and the model's own
fields; HAZ but for CLEAR; OUT_LEN and OUT_MEM but for the buffer commands (CLEAR writes OUT_LEN); LKRES but for the
lookup commands and CLEAR. BUSY becomes 0 and DONE 1 (R25, R28, R29, R31, R33, R77). -/
def Obligations.CommandFrame : Prop :=
  ∀ (i : Instr) (s : State), ∃ t, exec i s = .next t ∧
    t.busy = false ∧ t.done = true ∧
    t.cfg = s.cfg ∧ t.inLen = s.inLen ∧ t.inMem = s.inMem ∧ t.ie = s.ie ∧ t.cmdl = s.cmdl ∧
    t.hostRegs = s.hostRegs ∧ t.script = s.script ∧ t.draws = s.draws ∧ t.epoch = s.epoch ∧
    (i ≠ .clear → t.haz = s.haz) ∧
    (isBufferCommand i = false → t.outMem = s.outMem ∧ (i ≠ .clear → t.outLen = s.outLen)) ∧
    (isLookupCommand i = false → i ≠ .clear → t.lkRes = s.lkRes)

/-- R121, R122: a command that raises an error publishes no partial result: after a buffer command OUT_LEN is 0 and no
host read depends on what OUT_MEM holds, after a lookup command LKRES is 0 with HIT 0; ERRCODE names an error; and IN_LEN,
IN_MEM, IRQEN, HAZ and the ROM do not change. -/
def Obligations.ErrorLeavesNoPartialResult : Prop :=
  ∀ (i : Instr) (s t : State), i ≠ .nop → exec i s = .next t → t.err = true →
    (isBufferCommand i = true → t.outLen = 0 ∧ outputIsUnspecified t) ∧
    (isLookupCommand i = true → t.lkRes = 0 ∧ t.lkRes.getLsbD 31 = false) ∧
    t.errCode ≠ 0 ∧ (∀ e : Nat, 0xB ≤ e → t.errCode.toNat ≠ e) ∧
    t.inLen = s.inLen ∧ t.inMem = s.inMem ∧ t.ie = s.ie ∧ t.haz = s.haz ∧ t.cfg = s.cfg

/-- R119 under WF_ROM: which codes each command can write, and its position: NOPOS, but an element of the input for
DECODE's per-character errors. -/
def Obligations.ErrorCodesOfEachCommand : Prop :=
  ∀ (i : Instr) (s t : State), configLegal s.cfg = true → i ≠ .nop → exec i s = .next t →
    t.errCode ∈ reachableCodes i ∧
    (t.errCode = 0 → t.errPos = 0) ∧
    (t.errCode ∈ [0x2, 0x3, 0x7, 0x8, 0x9, 0xA] → t.errPos = 0xFFFFFFFF) ∧
    (t.errCode ∈ [0x4, 0x5, 0x6] →
      if i = .decode then t.errPos.toNat < s.inLen.toNat else t.errPos = 0xFFFFFFFF)

/-- R34, R110: a command's result depends only on its command word, IN_LEN, the entries below IN_LEN and the ROM. -/
def Obligations.ResultsDependOnInputsAlone : Prop :=
  ∀ (i : Instr) (s t s' t' : State), isBufferCommand i = true ∨ isLookupCommand i = true →
    s.cfg = t.cfg → s.inLen = t.inLen → (∀ k, k < s.inLen.toNat → inEntry s k = inEntry t k) →
    exec i s = .next s' → exec i t = .next t' →
    s'.err = t'.err ∧ s'.errCode = t'.errCode ∧ s'.errPos = t'.errPos ∧
    (isBufferCommand i = true → s'.outLen = t'.outLen ∧
      ∀ k, k < s'.outLen.toNat → Memory.lookup s'.outMem k = Memory.lookup t'.outMem k) ∧
    (isLookupCommand i = true → s'.lkRes = t'.lkRes)

/-! ### Host accesses -/

/-- R38: `A[1:0]` is ignored: an access at A reaches the same word as one at `A & 0xFF_FFFC`. -/
def Obligations.LowAddressBitsAreIgnored : Prop :=
  ∀ (a : Addr) (v : Word) (s : State),
    hostRead a s = hostRead (a &&& 0xFFFFFC) s ∧ hostWrite a v s = hostWrite (a &&& 0xFFFFFC) v s

/-- R42: reserved and unmapped words read 0 and ignore writes. -/
def Obligations.ReservedWordsReadZero : Prop :=
  ∀ (a : Addr) (v : Word) (s : State),
    (0x000020 ≤ a.toNat ∧ a.toNat ≤ 0x3FFFFF) ∨
      (0x400000 + 4 * s.cfg.inDepth ≤ a.toNat ∧ a.toNat ≤ 0x7FFFFF) ∨
      (0x800000 + 4 * s.cfg.outDepth ≤ a.toNat ∧ a.toNat ≤ 0xBFFFFF) ∨ 0xC00000 ≤ a.toNat →
    hostRead a s = 0 ∧ hostWrite a v s = s

/-- R43 and R41: writes to the read-only registers, to the OUT window and to the read-only bits of STATUS and IRQEN are
ignored and do not set HAZ: a write of STATUS acts by bits 1 and 3 alone, a write of IRQEN by bit 0 alone. -/
def Obligations.ReadOnlyWordsIgnoreWrites : Prop :=
  ∀ (a : Addr) (v : Word) (s : State),
    (a.toNat / 4 ∈ [0, 3, 5, 6] ∨ (0x800000 ≤ a.toNat ∧ a.toNat ≤ 0xBFFFFF) → hostWrite a v s = s) ∧
    (a.toNat / 4 = 2 → hostWrite a v s = hostWrite a (v &&& 0xA) s) ∧
    (a.toNat / 4 = 2 → v.getLsbD 1 = false → v.getLsbD 3 = false → hostWrite a v s = s) ∧
    (a.toNat / 4 = 7 → hostWrite a v s = hostWrite a (v &&& 1) s)

/-- R144: host writes while BUSY = 1. -/
def Obligations.WritesWhileBusy : Prop :=
  ∀ (a : Addr) (v : Word) (s : State), s.busy = true →
    hostWrite a v s =
      if a.toNat / 4 = 1 ∨ a.toNat / 4 = 4 ∨
          (0x400000 ≤ a.toNat ∧ a.toNat < 0x800000 ∧ a.toNat / 4 - 0x100000 < s.cfg.inDepth) then
        { s with haz := true }
      else if a.toNat / 4 = 2 then
        { s with done := s.done && !v.getLsbD 1, haz := s.haz && !v.getLsbD 3 }
      else if a.toNat / 4 = 7 then { s with ie := v.getLsbD 0 }
      else s

/-- R19, R21, R23, R25, R28: host writes of IN_LEN, STATUS and IRQEN while BUSY = 0: IN_LEN stores all 32 bits, STATUS
clears the W1C bits written as 1 and affects only DONE and HAZ, IRQEN stores bit 0. -/
def Obligations.RegisterWritesWhileIdle : Prop :=
  ∀ (v : Word) (s : State), s.busy = false →
    hostWrite 0x000010 v s = { s with inLen := v } ∧
    hostRead 0x000010 (hostWrite 0x000010 v s) = v ∧
    hostWrite 0x000008 v s = { s with done := s.done && !v.getLsbD 1, haz := s.haz && !v.getLsbD 3 } ∧
    hostWrite 0x00001C v s = { s with ie := v.getLsbD 0 } ∧
    hostRead 0x00001C (hostWrite 0x00001C v s) = v &&& 1

/-- R15 to R28: what the registers read while BUSY = 0, STATUS with its layout and its reserved bits 0. -/
def Obligations.RegisterReadsWhileIdle : Prop :=
  ∀ s : State, s.busy = false →
    hostRead 0x000000 s = 0x4233324B ∧ hostRead 0x000004 s = 0 ∧
    (hostRead 0x000008 s).toNat =
      2 * s.done.toNat + 4 * s.err.toNat + 8 * s.haz.toNat + 256 * s.errCode.toNat ∧
    hostRead 0x00000C s = s.errPos ∧ hostRead 0x000010 s = s.inLen ∧ hostRead 0x000014 s = s.outLen ∧
    hostRead 0x000018 s = s.lkRes ∧ (hostRead 0x00001C s).toNat = s.ie.toNat

/-- R145: the reads that have defined values while BUSY = 1: ID, CTRL, STATUS's BUSY (1), DONE (0), HAZ and reserved bits
(0), IN_LEN, the IN_MEM entries and IRQEN. -/
def Obligations.DefinedReadsWhileBusy : Prop :=
  ∀ s : State, Invariant s → s.busy = true →
    hostRead 0x000000 s = 0x4233324B ∧ hostRead 0x000004 s = 0 ∧
    (∃ err code : Nat, err < 2 ∧ code < 16 ∧
      (hostRead 0x000008 s).toNat = 1 + 4 * err + 8 * s.haz.toNat + 256 * code) ∧
    hostRead 0x000010 s = s.inLen ∧ (hostRead 0x00001C s).toNat = s.ie.toNat ∧
    ∀ i, i < s.cfg.inDepth → hostRead (BitVec.ofNat 24 (0x400000 + 4 * i)) s = inEntry s i

/-- R50: no read has a side effect on the device, and while BUSY = 0 every word reads the same after any read as before
it. For an output entry at or above OUT_LEN that clause is the model's reading (log 4, DEDUCED): R50's "two reads of the
same location with no write or completion between them return the same value" is preferred to I6's bare "any value". -/
def Obligations.ReadsHaveNoSideEffect : Prop :=
  ∀ (s : State) (r : Fin 8) (a : Addr) (ts : List Turn), s.script = .read r a :: ts →
    ∃ t, step s = .next t ∧ t.hostRegs = s.hostRegs.set r (hostRead a s) ∧
      t = { s with script := ts, hostRegs := t.hostRegs, draws := t.draws } ∧
      (s.busy = false → ∀ b, hostRead b t = hostRead b s)

/-- R40: input entry i is the word at 0x40_0000 + 4*i: the host reads what it wrote last, a write leaves the other
entries alone, and the words at and above IN_DEPTH are reserved. -/
def Obligations.InWindowReadsBack : Prop :=
  ∀ (s : State) (i : Nat) (v : Word), configLegal s.cfg = true → s.busy = false → i < 2 ^ 20 →
    let a := BitVec.ofNat 24 (0x400000 + 4 * i)
    if i < s.cfg.inDepth then
      hostRead a (hostWrite a v s) = v ∧ (∀ j, j ≠ i → inEntry (hostWrite a v s) j = inEntry s j) ∧
        hostWrite a v s = { s with inMem := (hostWrite a v s).inMem }
    else hostRead a s = 0 ∧ hostWrite a v s = s

/-- R41: output entry k is the word at 0x80_0000 + 4*k. While BUSY = 0 and k < OUT_LEN it reads the result word held
there; any other read of an entry is a free value (the model's form of "unspecified", log 4); host writes are ignored; the
words at and above OUT_DEPTH are reserved. -/
def Obligations.OutWindowReadsResults : Prop :=
  ∀ (s : State) (k : Nat) (v : Word), Invariant s → k < 2 ^ 20 →
    let a := BitVec.ofNat 24 (0x800000 + 4 * k)
    hostWrite a v s = s ∧
    (k < s.cfg.outDepth → s.busy = false → k < s.outLen.toNat →
      Memory.lookup s.outMem k = some (hostRead a s)) ∧
    (k < s.cfg.outDepth → (s.busy = true ∨ s.outLen.toNat ≤ k) →
      hostRead a s = Config.freeRead s.draws (0x800000 + 4 * k)) ∧
    (s.cfg.outDepth ≤ k → hostRead a s = 0)

/-- R30, R128: the IRQ line rises at the completion of every command while IE = 1, falls at the acceptance of the next
one and at a write of 1 to STATUS bit 1, and rises at once when IE is set while DONE = 1. -/
def Obligations.IrqLineLevel : Prop :=
  (∀ s : State, irq s = (s.done && s.ie)) ∧
  (∀ (i : Instr) (s : State), ∃ t, exec i s = .next t ∧ irq t = s.ie) ∧
  (∀ (s : State) (w : Word), s.busy = false → irq (hostWrite 0x000004 w s) = false) ∧
  (∀ (s : State) (v : Word), v.getLsbD 1 = true → irq (hostWrite 0x000008 v s) = false) ∧
  (∀ (s : State) (v : Word), v.getLsbD 0 = true → s.done = true → irq (hostWrite 0x00001C v s) = true) ∧
  ∀ c : Config, irq (State.resetOf c) = false

/-- R74: WAIT ends only when a read of STATUS returns BUSY = 0: a poll puts STATUS into r7, with BUSY in bit 0, and while
BUSY = 1 the host polls again after the engine's turn (whose place is the model's schedule, log 10). -/
def Obligations.WaitPollsUntilIdle : Prop :=
  ∀ (s : State) (ts : List Turn), s.script = .wait :: ts →
    ∃ t, step s = .next t ∧ t.hostRegs = s.hostRegs.set 7 (hostRead 0x000008 s) ∧
      (hostRead 0x000008 s).getLsbD 0 = s.busy ∧
      (s.busy = false → t.script = ts) ∧ (s.busy = true → t.script = .engine :: .wait :: ts)

/-! ### Reset -/

/-- R35: the state after power-on reset, every item the rule gives a value; the buffers list no entry. -/
def Obligations.ResetValues : Prop :=
  ∀ c : Config,
    (State.resetOf c).cfg = c ∧ (State.resetOf c).busy = false ∧ (State.resetOf c).done = false ∧
    (State.resetOf c).err = false ∧ (State.resetOf c).haz = false ∧ (State.resetOf c).errCode = 0 ∧
    (State.resetOf c).errPos = 0 ∧ (State.resetOf c).inLen = 0 ∧ (State.resetOf c).outLen = 0 ∧
    (State.resetOf c).lkRes = 0 ∧ (State.resetOf c).ie = false ∧ irq (State.resetOf c) = false ∧
    hostRead 0x000000 (State.resetOf c) = 0x4233324B ∧
    (∀ i, Memory.lookup (State.resetOf c).inMem i = none) ∧
    ∀ k, Memory.lookup (State.resetOf c).outMem k = none

/-- R138, R139: a RESET turn at any moment gives the registers their reset values, keeps the configuration, and abandons
the command in flight: no completion step follows for it. -/
def Obligations.ResetAbandonsTheCommand : Prop :=
  ∀ (s : State) (ts : List Turn), s.script = .reset :: ts →
    ∃ t, step s = .next t ∧ t.script = ts ∧ t.cfg = s.cfg ∧
      t.busy = false ∧ t.done = false ∧ t.err = false ∧ t.haz = false ∧ t.errCode = 0 ∧ t.errPos = 0 ∧
      t.inLen = 0 ∧ t.outLen = 0 ∧ t.lkRes = 0 ∧ t.ie = false ∧ irq t = false ∧
      (∀ i, Memory.lookup t.inMem i = none) ∧ (∀ k, Memory.lookup t.outMem k = none) ∧
      engineTurn t = .next t

/-! ### The whole machine -/

/-- The invariant holds after the reset of every legal device, that of `State.reset` among them (whose configuration is
the model's choice, log 1). -/
def Obligations.InvariantHoldsAtReset : Prop :=
  (∀ c : Config, configLegal c = true → Invariant (State.resetOf c)) ∧ Invariant State.reset

/-- Every step keeps the invariant (R7, R19, R20, R22, R24, R26, R27, R31, R32, R41). -/
def Obligations.StepKeepsTheInvariant : Prop :=
  ∀ s t : State, Invariant s → step s = .next t → Invariant t

/-- The machine never stops, in any state. R42 says it of host accesses ("No access ever raises a bus error") and R127
says "There is no runtime fatal state". That no fault exists at all is the model's reading (log 15, DEDUCED), and that a
command over an unwritten IN_MEM entry goes on, where R140 and I9 offer a fault, is its choice (log 3, DESIGN CHOICE). -/
def Obligations.EveryStepProceeds : Prop :=
  ∀ s : State, Proceeds s

/-- R36, R100: no step changes the configuration, and so none changes the ROM. -/
def Obligations.StepKeepsTheConfiguration : Prop :=
  ∀ s t : State, step s = .next t →
    t.cfg = s.cfg ∧ (∀ tier v, fwd t.cfg tier v = fwd s.cfg tier v) ∧ ∀ cp, rev t.cfg cp = rev s.cfg cp

/-- R52, R144: no step of the BUSY window changes an input of the command in flight. -/
def Obligations.InputsAreFrozenWhileBusy : Prop :=
  ∀ s t : State, s.busy = true → step s = .next t → t.busy = true →
    t.cmdl = s.cmdl ∧ t.inLen = s.inLen ∧ t.inMem = s.inMem ∧ t.cfg = s.cfg ∧ ∀ i, inEntry t i = inEntry s i

/-- R20, R22, R24, R26, R27, R32, R125: only a completion step or a reset changes ERR, ERRCODE, ERRPOS, OUT_LEN, LKRES or
OUT_MEM. That these are turns of a list is the model's choice (log 2, DESIGN CHOICE). -/
def Obligations.OnlyCompletionOrResetPublishes : Prop :=
  ∀ (s t : State) (turn : Turn) (ts : List Turn), s.script = turn :: ts → turn ≠ .engine → turn ≠ .reset →
    step s = .next t →
    t.err = s.err ∧ t.errCode = s.errCode ∧ t.errPos = s.errPos ∧ t.outLen = s.outLen ∧ t.lkRes = s.lkRes ∧
      t.outMem = s.outMem

/-- R147: every accepted command completes unless a reset comes first: a busy machine with no reset to come has DONE = 1
and BUSY = 0 after at most one step more than it has turns to come. The list of turns, and that the engine moves when it
is empty, are the model's choice (log 2, DESIGN CHOICE), and so is the bound, which R147 does not give. -/
def Obligations.AcceptedCommandCompletes : Prop :=
  ∀ s : State, s.busy = true → .reset ∉ s.script →
    ∃ n t, n ≤ s.script.length + 1 ∧ Sys2Proof.core.run n s = .next t ∧ t.busy = false ∧ t.done = true

/-! ### The host's turns -/

/-- R50, R51, R74: a write turn is the one host write of its word, from the operand or from a scratch register, before the
next turn; so a CTRL write while BUSY = 0 issues its word (R75). The list of turns is the model's choice (log 2, DESIGN
CHOICE), and so are the scratch registers in the state (log 9, DESIGN CHOICE); the new moment a write begins, `draws + 1`,
is its reading (log 4, DEDUCED). -/
def Obligations.WriteTurnIsTheHostWrite : Prop :=
  ∀ (s : State) (a : Addr) (ts : List Turn),
    (∀ v : Word, s.script = .write a (.imm v) :: ts →
      step s = .next (hostWrite a v { s with script := ts, draws := s.draws + 1 })) ∧
    (∀ r : Fin 8, s.script = .write a (.reg r) :: ts →
      step s = .next (hostWrite a s.hostRegs[r] { s with script := ts, draws := s.draws + 1 })) ∧
    (∀ w : Word, s.script = .write 0x000004 (.imm w) :: ts → s.busy = false →
      step s =
        .next { s with cmdl := w, busy := true, done := false, script := ts, draws := s.draws + 1 })

/-- A skip turn is the branch `if (rN & mask) != 0 goto` of the programs of 95_test_vectors.md, forward over the next
`count` turns: it touches nothing but the turns to come. As a turn of a list it is the model's choice (log 2, DESIGN
CHOICE). -/
def Obligations.SkipTurnIsAForwardBranch : Prop :=
  ∀ (s : State) (r : Fin 8) (mask : Word) (count : Nat) (ts : List Turn), s.script = .skipIfSet r mask count :: ts →
    (s.hostRegs[r] &&& mask ≠ 0 → step s = .next { s with script := ts.drop count }) ∧
    (s.hostRegs[r] &&& mask = 0 → step s = .next { s with script := ts })

/-- R74: `RUN cmd`, that is `ISSUE cmd; WAIT`, from an idle device: the command is issued, runs at a state that differs
from the start in CMDL, BUSY, DONE and the model's own fields alone, and the host goes on with STATUS in r7. That four
steps do it is the model's schedule (log 2, log 10, DESIGN CHOICE), not the device's latency. -/
def Obligations.RunIssuesTheCommandAndWaits : Prop :=
  ∀ (s : State) (i : Instr) (ts : List Turn), i.wf = true → s.busy = false → s.script = runCommand i ++ ts →
    ∃ (polled : Vector Word 8) (u t : State),
      exec i { s with
        cmdl := encode i, busy := true, done := false,
        hostRegs := polled, script := .wait :: ts, draws := s.draws + 3 } = .next u ∧
      Sys2Proof.core.run 4 s = .next t ∧
      t = { u with script := ts, hostRegs := u.hostRegs.set 7 (hostRead 0x000008 u) } ∧
      t.busy = false ∧ t.done = true

/-- R74: `LOADIN v0, ..., v(n-1)` on an idle device of at least n entries writes the entries in order and then IN_LEN = n,
and changes nothing else of the device. That it is n + 1 turns of a list is the model's choice (log 2, DESIGN CHOICE). -/
def Obligations.LoadInFillsTheInputBuffer : Prop :=
  ∀ (s : State) (vs : List Word) (ts : List Turn), configLegal s.cfg = true → s.busy = false →
    vs.length ≤ s.cfg.inDepth → s.script = loadIn vs ++ ts →
    ∃ t, Sys2Proof.core.run (vs.length + 1) s = .next t ∧
      t = { s with script := ts, inLen := t.inLen, inMem := t.inMem, draws := t.draws } ∧
      t.inLen.toNat = vs.length ∧
      (∀ k v, vs[k]? = some v → Memory.lookup t.inMem k = some v) ∧
      ∀ k, vs.length ≤ k → Memory.lookup t.inMem k = Memory.lookup s.inMem k
end

