-- ==== Sys2Proof/Laws/Codec.lean ====
section
/-! SUPPORT. What the two element loops can answer, said once: all elements pass, or the first failing one decides
(43_encode.md R103, 44_decode.md R111, 60_exceptions.md R124). -/

namespace Sys2Proof.Machine

/-- ENCODE's loop succeeds exactly when every group does, and then answers the groups' codepoints in order. -/
theorem encodeGroups_eq_ok_iff (c : Config) (k : Nat) (gs : List Group) (cps : List Nat) :
    encodeGroups c k gs = .ok cps ↔
      cps.length = gs.length ∧ ∀ j g, gs[j]? = some g →
        ∃ cp, cps[j]? = some cp ∧ encodeGroup c (k + j) g (decide (j + 1 = gs.length)) = .ok cp := by
  induction gs generalizing k cps with
  | nil => cases cps <;> simp [encodeGroups]
  | cons g gs ih =>
    have hlast : gs.isEmpty = decide (0 + 1 = (g :: gs).length) := by cases gs <;> simp
    rw [encodeGroups]
    constructor
    · intro h
      cases h1 : encodeGroup c k g gs.isEmpty with
      | error e => simp [h1] at h
      | ok cp =>
        cases h2 : encodeGroups c (k + 1) gs with
        | error e => simp [h1, h2] at h
        | ok rest =>
          simp only [h1, h2, Except.ok.injEq] at h
          subst h
          obtain ⟨hl, hg⟩ := (ih (k + 1) rest).1 h2
          refine ⟨by simp [hl], fun j g' hj => ?_⟩
          cases j with
          | zero =>
            simp only [List.getElem?_cons_zero, Option.some.injEq] at hj
            subst hj
            exact ⟨cp, rfl, by rw [← hlast]; exact h1⟩
          | succ j =>
            obtain ⟨x, hx, he⟩ := hg j g' (by simpa using hj)
            refine ⟨x, by simpa using hx, ?_⟩
            simpa [Nat.add_assoc, Nat.add_comm 1 j] using he
    · rintro ⟨hl, hg⟩
      cases cps with
      | nil => simp at hl
      | cons cp rest =>
        obtain ⟨x, hx, he⟩ := hg 0 g rfl
        simp only [List.getElem?_cons_zero, Option.some.injEq] at hx
        subst hx
        rw [← hlast] at he
        have h2 : encodeGroups c (k + 1) gs = .ok rest := by
          refine (ih (k + 1) rest).2 ⟨by simpa using hl, fun j g' hj => ?_⟩
          obtain ⟨y, hy, hye⟩ := hg (j + 1) g' (by simpa using hj)
          refine ⟨y, by simpa using hy, ?_⟩
          simpa [Nat.add_assoc, Nat.add_comm 1 j] using hye
        simp only [Nat.add_zero] at he
        simp [he, h2]

/-- DECODE's loop fails with an error exactly when some character does and every one before it passes. -/
theorem decodeChars_eq_error_iff (c : Config) (p : Nat) (cps : List Nat) (e : Raised) :
    decodeChars c p cps = .error e ↔
      ∃ j cp, cps[j]? = some cp ∧ decodeChar c (p + j) cp (decide (j + 1 = cps.length)) = .error e ∧
        ∀ i x, i < j → cps[i]? = some x → ∃ r, decodeChar c (p + i) x (decide (i + 1 = cps.length)) = .ok r := by
  induction cps generalizing p with
  | nil => simp [decodeChars]
  | cons a as ih =>
    have hlast : as.isEmpty = decide (0 + 1 = (a :: as).length) := by cases as <;> simp
    rw [decodeChars]
    constructor
    · intro h
      cases h1 : decodeChar c p a as.isEmpty with
      | error e' =>
        simp only [h1, Except.error.injEq] at h
        subst h
        exact ⟨0, a, rfl, by rw [← hlast]; exact h1, by simp⟩
      | ok r =>
        cases h2 : decodeChars c (p + 1) as with
        | ok r' => simp [h1, h2] at h
        | error e' =>
          simp only [h1, h2, Except.error.injEq] at h
          subst h
          obtain ⟨j, cp, hj, he, hb⟩ := (ih (p + 1)).1 h2
          refine ⟨j + 1, cp, by simpa using hj, ?_, fun i x hi hx => ?_⟩
          · simpa [Nat.add_assoc, Nat.add_comm 1 j] using he
          · cases i with
            | zero =>
              simp only [List.getElem?_cons_zero, Option.some.injEq] at hx
              subst hx
              exact ⟨r, by rw [← hlast]; exact h1⟩
            | succ i =>
              obtain ⟨r', hr⟩ := hb i x (by omega) (by simpa using hx)
              exact ⟨r', by simpa [Nat.add_assoc, Nat.add_comm 1 i] using hr⟩
    · rintro ⟨j, cp, hj, he, hb⟩
      cases j with
      | zero =>
        simp only [List.getElem?_cons_zero, Option.some.injEq] at hj
        subst hj
        rw [← hlast] at he
        simp only [Nat.add_zero] at he
        simp [he]
      | succ j =>
        obtain ⟨r, hr⟩ := hb 0 a (by omega) rfl
        rw [← hlast] at hr
        have h2 : decodeChars c (p + 1) as = .error e := by
          refine (ih (p + 1)).2 ⟨j, cp, by simpa using hj, ?_, fun i x hi hx => ?_⟩
          · simpa [Nat.add_assoc, Nat.add_comm 1 j] using he
          · obtain ⟨r', hr'⟩ := hb (i + 1) x (by omega) (by simpa using hx)
            exact ⟨r', by simpa [Nat.add_assoc, Nat.add_comm 1 i] using hr'⟩
        simp only [Nat.add_zero] at hr
        simp [hr, h2]

/-- DECODE's loop on characters that all pass: their values in order, and `last_w` of the final one. -/
theorem decodeChars_ok (c : Config) (p : Nat) (cps : List Nat) (tier value : Nat → Nat)
    (h : ∀ j cp, cps[j]? = some cp →
      decodeChar c (p + j) cp (decide (j + 1 = cps.length)) = .ok (tier j, value j)) :
    decodeChars c p cps =
      .ok ((List.range cps.length).map value,
        if ∃ j, j < cps.length ∧ 1 ≤ tier j then 15 - 8 * tier (cps.length - 1) else 15) := by
  induction cps generalizing p tier value with
  | nil => simp [decodeChars]
  | cons a as ih =>
    have hlast : as.isEmpty = decide (0 + 1 = (a :: as).length) := by cases as <;> simp
    have h0 : decodeChar c p a as.isEmpty = .ok (tier 0, value 0) := by
      rw [hlast]; simpa using h 0 a rfl
    have hs := ih (p + 1) (fun j => tier (j + 1)) (fun j => value (j + 1)) fun j cp hj => by
      have := h (j + 1) cp (by simpa using hj)
      simpa [Nat.add_assoc, Nat.add_comm 1 j] using this
    rw [decodeChars]
    simp only [h0, hs]
    have hv : value 0 :: (List.range as.length).map (fun j => value (j + 1)) =
        (List.range (a :: as).length).map value := by
      rw [List.length_cons, List.range_succ_eq_map, List.map_cons, List.map_map]; rfl
    rw [hv]
    congr 2
    by_cases ht : 1 ≤ tier 0
    · have hnil : as = [] := by
        by_contra hne
        have hf : as.isEmpty = false := by simp [hne]
        unfold decodeChar at h0
        rw [hf] at h0
        split_ifs at h0
        split at h0
        · cases h0
        · split_ifs at h0 with hc
          · simp only [Except.ok.injEq, Prod.mk.injEq] at h0
            simp [h0.1, ht] at hc
      subst hnil
      simp [ht]
    · rw [if_neg (by simpa using ht)]
      by_cases hex : ∃ j, j < as.length ∧ 1 ≤ tier (j + 1)
      · obtain ⟨j, hj, hj1⟩ := hex
        rw [if_pos ⟨j, hj, hj1⟩, if_pos ⟨j + 1, by simpa using hj, hj1⟩]
        rw [List.length_cons, Nat.add_sub_cancel, show as.length - 1 + 1 = as.length by omega]
      · rw [if_neg hex, if_neg]
        rintro ⟨j, hj, hj1⟩
        cases j with
        | zero => exact ht hj1
        | succ j => exact hex ⟨j, by simpa using hj, hj1⟩

end Sys2Proof.Machine
end

