-- ==== Sys2Proof/Laws/Decode.lean ====
section
/-! SUPPORT. What the decoder does, said once: the rows of the opcode map (30_encoding.md R63). -/

namespace Sys2Proof

/-- A slice fits its field (R9). -/
theorem slice_lt (w : Word) (hi lo : Nat) : w.slice hi lo < 2 ^ (hi + 1 - lo) := Nat.mod_lt _ (Nat.two_pow_pos _)

/-- OP is below 16 (R58). -/
theorem opOf_lt (w : Word) : opOf w < 16 := slice_lt w 3 0

/-- When a word selects a row (R63). -/
theorem selects_iff (f : Format) (op : Nat) (w : Word) :
    selects f op w = true ↔ w &&& f.mask = BitVec.ofNat 32 op := beq_iff_eq

/-- What a row answers (R63, R64). -/
theorem decodeRow_eq_ok_iff (f : Format) (op : Nat) (i j : Instr) (w : Word) :
    decodeRow f op i w = .ok j ↔ selects f op w = true ∧ j = i := by
  unfold decodeRow
  by_cases h : selects f op w = true
  · rw [if_pos h]; exact ⟨fun e => ⟨h, (Except.ok.inj e).symm⟩, fun e => (by rw [e.2])⟩
  · rw [if_neg h]; exact ⟨fun e => (by cases e), fun e => absurd e.1 h⟩

end Sys2Proof
end

