-- ==== Sys2Proof/Laws/Flags.lean ====
section
/-! SUPPORT. The words of STATUS and IRQEN as numbers, and the error codes (10_state.md R18 to R23, R28; R119). -/

namespace Sys2Proof.Machine

/-- The layout of STATUS: every bit that is no flag and no bit of ERRCODE is 0 (R18 to R23). -/
theorem statusWord_toNat (busy done err haz : Bool) (code : BitVec 4) :
    (statusWord busy done err haz code).toNat =
      busy.toNat + 2 * done.toNat + 4 * err.toNat + 8 * haz.toNat + 256 * code.toNat := by
  revert busy done err haz code
  decide +kernel

/-- The layout of IRQEN (R28). -/
theorem irqEnWord_toNat (ie : Bool) : (irqEnWord ie).toNat = ie.toNat := by
  revert ie
  decide

/-- No error has the code 0, which is "no error" (R119). -/
@[simp] theorem errCodeOf_ne_zero (e : Err) : errCodeOf e ≠ 0#4 := by
  cases e <;> decide

/-- No error has a code above 0xA (R119). -/
theorem errCodeOf_le (e : Err) : (errCodeOf e).toNat ≤ 0xA := by
  cases e <;> decide

end Sys2Proof.Machine
end

