-- ==== Sys2Proof/Laws/Memory.lean ====
section
/-! SUPPORT. The laws of the two buffers: read after write, and every operation keeps the canonical form. -/

namespace Sys2Proof.Machine

@[simp] theorem lookup_nil (i : Nat) : Memory.lookup [] i = none := rfl

/-- Reading the entry just written gives the word written (R40). -/
@[simp] theorem lookup_store_same (m : Memory) (i : Nat) (v : Word) :
    Memory.lookup (Memory.store m i v) i = some v := by
  induction m with
  | nil => simp [Memory.store, Memory.lookup]
  | cons e m ih =>
    obtain ⟨j, w⟩ := e
    simp only [Memory.store]
    split_ifs with h h' <;> simp_all [Memory.lookup, eq_comm]

/-- A write leaves every other entry alone. -/
theorem lookup_store_other (m : Memory) {i k : Nat} (v : Word) (h : k ≠ i) :
    Memory.lookup (Memory.store m i v) k = Memory.lookup m k := by
  induction m with
  | nil => simp [Memory.store, Memory.lookup, h.symm]
  | cons e m ih =>
    obtain ⟨j, w⟩ := e
    simp only [Memory.store]
    split_ifs with h1 h2 <;> simp_all [Memory.lookup, eq_comm]

theorem lookup_store (m : Memory) (i k : Nat) (v : Word) :
    Memory.lookup (Memory.store m i v) k = if k = i then some v else Memory.lookup m k := by
  split_ifs with h
  · subst h; exact lookup_store_same m k v
  · exact lookup_store_other m v h

/-- The canonical form, as a proposition. -/
theorem wf_iff (d : Nat) (m : Memory) :
    Memory.wf d m = true ↔ m.Pairwise (fun a b => a.1 < b.1) ∧ ∀ e ∈ m, e.1 < d := by
  simp [Memory.wf]

/-- Every index of a stored buffer is the one written or an old one. -/
theorem mem_store {m : Memory} {i : Nat} {v : Word} {e : Nat × Word} (h : e ∈ Memory.store m i v) :
    e = (i, v) ∨ e ∈ m := by
  induction m with
  | nil => simpa [Memory.store] using h
  | cons c m ih =>
    obtain ⟨j, w⟩ := c
    simp only [Memory.store] at h
    split_ifs at h with h1 h2
    · simpa using h
    · rcases List.mem_cons.1 h with h | h
      · exact .inl h
      · exact .inr (List.mem_cons_of_mem _ h)
    · rcases List.mem_cons.1 h with h | h
      · exact .inr (h ▸ List.mem_cons_self)
      · exact (ih h).imp id (List.mem_cons_of_mem _)

/-- A write inside the buffer keeps the canonical form. -/
theorem store_wf {d : Nat} {m : Memory} {i : Nat} {v : Word} (hi : i < d) (h : Memory.wf d m = true) :
    Memory.wf d (Memory.store m i v) = true := by
  rw [wf_iff] at h ⊢
  obtain ⟨hs, hb⟩ := h
  refine ⟨?_, fun e he => (mem_store he).elim (fun h => h ▸ hi) (hb e)⟩
  clear hb
  induction m with
  | nil => simp [Memory.store]
  | cons c m ih =>
    obtain ⟨j, w⟩ := c
    obtain ⟨hj, ht⟩ := List.pairwise_cons.1 hs
    simp only [Memory.store]
    split_ifs with h1 h2
    · refine List.pairwise_cons.2 ⟨fun e he => ?_, List.pairwise_cons.2 ⟨hj, ht⟩⟩
      rcases List.mem_cons.1 he with rfl | he
      · exact h1
      · exact lt_trans h1 (hj e he)
    · subst h2; exact List.pairwise_cons.2 ⟨hj, ht⟩
    · refine List.pairwise_cons.2 ⟨fun e he => ?_, ih ht⟩
      rcases mem_store he with rfl | he
      · show j < i; omega
      · exact hj e he

/-- A result list inside the buffer keeps the canonical form. -/
theorem storeAll_wf {d : Nat} {ws : List Word} {m : Memory} {i : Nat} (hi : i + ws.length ≤ d)
    (h : Memory.wf d m = true) : Memory.wf d (Memory.storeAll m i ws) = true := by
  induction ws generalizing m i with
  | nil => exact h
  | cons w ws ih =>
    simp only [List.length_cons] at hi
    exact ih (by omega) (store_wf (by omega) h)

/-- A result list fills exactly the entries from `i` on that it has words for (R77: "entries k >= n keep their
values"). -/
theorem lookup_storeAll (ws : List Word) (m : Memory) (i k : Nat) :
    Memory.lookup (Memory.storeAll m i ws) k =
      if i ≤ k ∧ k < i + ws.length then ws[k - i]? else Memory.lookup m k := by
  induction ws generalizing m i with
  | nil =>
    have : ¬ (i ≤ k ∧ k < i) := by omega
    simp [Memory.storeAll, this]
  | cons w ws ih =>
    rw [Memory.storeAll, ih, lookup_store]
    simp only [List.length_cons]
    by_cases hk : k = i
    · subst hk
      simp
    · by_cases hr : i + 1 ≤ k ∧ k < i + 1 + ws.length
      · obtain ⟨n, rfl⟩ : ∃ n, k = i + 1 + n := ⟨k - (i + 1), by omega⟩
        rw [if_pos hr, if_pos (by omega), show i + 1 + n - (i + 1) = n by omega,
          show i + 1 + n - i = n + 1 by omega, List.getElem?_cons_succ]
      · rw [if_neg hr, if_neg hk, if_neg (by omega)]

/-- The entries of a result list written from index 0. -/
theorem lookup_storeAll_zero (ws : List Word) (m : Memory) (k : Nat) :
    Memory.lookup (Memory.storeAll m 0 ws) k = if k < ws.length then ws[k]? else Memory.lookup m k := by
  simp [lookup_storeAll]

end Sys2Proof.Machine
end

