-- ==== Sys2Proof/Laws/Regroup.lean ====
section
/-! SUPPORT. What the regrouper does, once: its bits are one stream, and its groups are that stream cut into pieces of
`outW` bits (`regroup_eq_chunks`). Proofs about RESIZE, ENCODE and DECODE cite this instead of unfolding the loop. -/

namespace Sys2Proof.Machine

/-- The low `w` bits of an element, most significant first. -/
def elementBits (e : Nat) : Nat → List Nat
  | 0     => []
  | j + 1 => e / 2 ^ j % 2 :: elementBits e j

/-- The stream of R86: every element's valid bits, in order. -/
def streamBits (inW lastW : Nat) : List Nat → List Nat
  | []             => []
  | [e]            => elementBits e lastW
  | e :: e' :: es => elementBits e inW ++ streamBits inW lastW (e' :: es)

/-- The number whose bits, most significant first, are the list. -/
def pack (bits : List Nat) : Nat := bits.foldl (fun a b => 2 * a + b) 0

/-- A piece of the stream as a group. -/
def groupOf (bits : List Nat) : Group := ⟨pack bits, bits.length⟩

/-- The stream cut into pieces of `outW` bits, the last one as long as what is left. -/
def chunks (outW : Nat) (bits : List Nat) : List Group :=
  (List.range ((bits.length + outW - 1) / outW)).map fun k => groupOf ((bits.drop (k * outW)).take outW)

/-! ### Bits of elements and of the stream -/

@[simp] theorem elementBits_length (e w : Nat) : (elementBits e w).length = w := by
  induction w with
  | zero => rfl
  | succ j ih => simp [elementBits, ih]

theorem elementBits_lt_two {e w b : Nat} (h : b ∈ elementBits e w) : b < 2 := by
  induction w with
  | zero => simp [elementBits] at h
  | succ j ih =>
    rcases List.mem_cons.1 h with rfl | h
    · exact Nat.mod_lt _ two_pos
    · exact ih h

theorem elementBits_getElem? (e w m : Nat) :
    (elementBits e w)[m]? = if m < w then some (e / 2 ^ (w - 1 - m) % 2) else none := by
  induction w generalizing m with
  | zero => simp [elementBits]
  | succ j ih =>
    cases m with
    | zero => simp [elementBits]
    | succ m =>
      rw [elementBits, List.getElem?_cons_succ, ih, show j + 1 - 1 - (m + 1) = j - 1 - m by omega]
      simp only [Nat.add_lt_add_iff_right]

/-- T of R86. -/
theorem streamBits_length (inW lastW : Nat) (es : List Nat) :
    (streamBits inW lastW es).length = if es.length = 0 then 0 else (es.length - 1) * inW + lastW := by
  induction es with
  | nil => rfl
  | cons e es ih =>
    cases es with
    | nil => simp [streamBits]
    | cons e' es =>
      rw [streamBits, List.length_append, elementBits_length, ih]
      simp only [List.length_cons, Nat.add_one_ne_zero, if_false, Nat.add_sub_cancel]
      ring

theorem streamBits_lt_two {inW lastW b : Nat} {es : List Nat} (h : b ∈ streamBits inW lastW es) : b < 2 := by
  induction es with
  | nil => simp [streamBits] at h
  | cons e es ih =>
    cases es with
    | nil => exact elementBits_lt_two h
    | cons e' es =>
      rcases List.mem_append.1 h with h | h
      · exact elementBits_lt_two h
      · exact ih h

/-! ### Packing -/

theorem pack_append (xs ys : List Nat) : pack (xs ++ ys) = pack xs * 2 ^ ys.length + pack ys := by
  have key : ∀ (l : List Nat) (a : Nat), l.foldl (fun a b => 2 * a + b) a = a * 2 ^ l.length + pack l := by
    intro l
    induction l with
    | nil => intro a; simp [pack]
    | cons x l ih =>
      intro a
      rw [pack, List.foldl_cons, List.foldl_cons, ih, ih (2 * 0 + x), List.length_cons, pow_succ]
      ring
  rw [pack, List.foldl_append, key]
  rfl

@[simp] theorem pack_nil : pack [] = 0 := rfl

@[simp] theorem pack_singleton (b : Nat) : pack [b] = b := by simp [pack]

theorem pack_cons (b : Nat) (bs : List Nat) : pack (b :: bs) = b * 2 ^ bs.length + pack bs := by
  have := pack_append [b] bs
  simpa using this

theorem pack_lt {bits : List Nat} (h : ∀ b ∈ bits, b < 2) : pack bits < 2 ^ bits.length := by
  induction bits with
  | nil => simp
  | cons b bs ih =>
    have hb := h b List.mem_cons_self
    have := ih fun x hx => h x (List.mem_cons_of_mem _ hx)
    rw [pack_cons, List.length_cons, pow_succ]
    have : b * 2 ^ bs.length ≤ 1 * 2 ^ bs.length := Nat.mul_le_mul_right _ (by omega)
    omega

/-- A packed list as a sum of its bits, bit m at weight `2^(length - 1 - m)` (R86). -/
theorem pack_eq_sum (bits : List Nat) :
    pack bits = ∑ m ∈ Finset.range bits.length, bits.getD m 0 * 2 ^ (bits.length - 1 - m) := by
  induction bits with
  | nil => rfl
  | cons b bs ih =>
    rw [pack_cons, ih, List.length_cons, Finset.sum_range_succ']
    simp only [List.getD_cons_succ, List.getD_cons_zero, Nat.add_sub_cancel, Nat.sub_zero]
    rw [add_comm]
    congr 1
    apply Finset.sum_congr rfl
    intro m _
    rw [show bs.length - (m + 1) = bs.length - 1 - m by omega]

/-! ### The loop -/

theorem shiftInElement_eq_foldl (outW : Nat) (r : Regrouper) (e w : Nat) :
    shiftInElement outW r e w = (elementBits e w).foldl (shiftIn outW) r := by
  induction w generalizing r with
  | zero => rfl
  | succ j ih => rw [shiftInElement, ih, elementBits, List.foldl_cons]

theorem shiftInElements_eq_foldl (inW outW lastW : Nat) (r : Regrouper) (es : List Nat) :
    shiftInElements inW outW lastW r es = (streamBits inW lastW es).foldl (shiftIn outW) r := by
  induction es generalizing r with
  | nil => rfl
  | cons e es ih =>
    cases es with
    | nil => exact shiftInElement_eq_foldl ..
    | cons e' es =>
      rw [shiftInElements, ih, shiftInElement_eq_foldl, streamBits, List.foldl_append]

/-- One bit into an accumulator that has room for it: the accumulator never wraps (R89). -/
theorem shiftIn_room {outW n acc bit : Nat} (out : List Group) (ho : outW ≤ 16) (hn : n < outW)
    (ha : acc < 2 ^ n) (hb : bit < 2) :
    shiftIn outW ⟨acc, n, out⟩ bit =
      if n + 1 = outW then ⟨0, 0, out ++ [⟨2 * acc + bit, outW⟩]⟩ else ⟨2 * acc + bit, n + 1, out⟩ := by
  have h1 : acc <<< 1 ||| bit = 2 * acc + bit := by
    rw [← Nat.shiftLeft_add_eq_or_of_lt (by simpa using hb), Nat.shiftLeft_eq]; ring
  have h2 : (2 : Nat) ^ (n + 1) ≤ 2 ^ 16 := Nat.pow_le_pow_right two_pos (by omega)
  have h3 : (2 * acc + bit) % 2 ^ 16 = 2 * acc + bit := Nat.mod_eq_of_lt (by rw [pow_succ] at h2; omega)
  simp only [shiftIn, h1, h3]

/-- Bits that do not fill a group stay in the accumulator. -/
theorem foldl_held {outW : Nat} (ho : outW ≤ 16) (out : List Group) (bits : List Nat) (hb : ∀ b ∈ bits, b < 2)
    (hl : bits.length < outW) :
    bits.foldl (shiftIn outW) ⟨0, 0, out⟩ = ⟨pack bits, bits.length, out⟩ := by
  induction bits using List.reverseRecOn with
  | nil => rfl
  | append_singleton bs b ih =>
    simp only [List.length_append, List.length_singleton] at hl
    have hbs : ∀ x ∈ bs, x < 2 := fun x hx => hb x (List.mem_append_left _ hx)
    rw [List.foldl_append, ih hbs (by omega), List.foldl_cons, List.foldl_nil,
      shiftIn_room out ho (by omega) (pack_lt hbs) (hb b (by simp)), if_neg (by omega), pack_append]
    simp [mul_comm]

/-- Exactly `outW` bits make one full group. -/
theorem foldl_full {outW : Nat} (h1 : 1 ≤ outW) (ho : outW ≤ 16) (out : List Group) (bits : List Nat)
    (hb : ∀ b ∈ bits, b < 2) (hl : bits.length = outW) :
    bits.foldl (shiftIn outW) ⟨0, 0, out⟩ = ⟨0, 0, out ++ [groupOf bits]⟩ := by
  induction bits using List.reverseRecOn with
  | nil => simp at hl; omega
  | append_singleton bs b =>
    simp only [List.length_append, List.length_singleton] at hl
    have hbs : ∀ x ∈ bs, x < 2 := fun x hx => hb x (List.mem_append_left _ hx)
    rw [List.foldl_append, foldl_held ho out bs hbs (by omega), List.foldl_cons, List.foldl_nil,
      shiftIn_room out ho (by omega) (pack_lt hbs) (hb b (by simp)), if_pos hl]
    simp [groupOf, pack_append, hl, mul_comm]

theorem chunks_short {outW : Nat} {bits : List Nat} (h0 : bits ≠ []) (hl : bits.length ≤ outW) :
    chunks outW bits = [groupOf bits] := by
  have hp : 0 < bits.length := List.length_pos_of_ne_nil h0
  have : (bits.length + outW - 1) / outW = 1 := by
    apply Nat.div_eq_of_lt_le <;> omega
  simp [chunks, this, List.take_of_length_le hl]

theorem chunks_long {outW : Nat} (h1 : 1 ≤ outW) {bits : List Nat} (hl : outW ≤ bits.length) :
    chunks outW bits = groupOf (bits.take outW) :: chunks outW (bits.drop outW) := by
  have : (bits.length + outW - 1) / outW = ((bits.drop outW).length + outW - 1) / outW + 1 := by
    rw [List.length_drop, ← Nat.add_div_right _ h1]
    congr 1; omega
  rw [chunks, this, List.range_succ_eq_map, List.map_cons, List.map_map]
  simp only [chunks, Nat.zero_mul, List.drop_zero, List.drop_drop]
  congr 1
  apply List.map_congr_left
  intro k _
  simp only [Function.comp, Nat.succ_mul, Nat.add_comm]

theorem chunks_nil (outW : Nat) (h1 : 1 ≤ outW) : chunks outW [] = [] := by
  have : (0 + outW - 1) / outW = 0 := Nat.div_eq_of_lt (by omega)
  simp only [chunks, List.length_nil, this, List.range_zero, List.map_nil]

theorem emitPartial_foldl {outW : Nat} (h1 : 1 ≤ outW) (ho : outW ≤ 16) (out : List Group) (bits : List Nat)
    (hb : ∀ b ∈ bits, b < 2) :
    emitPartial (bits.foldl (shiftIn outW) ⟨0, 0, out⟩) = out ++ chunks outW bits := by
  induction hn : bits.length using Nat.strong_induction_on generalizing bits out with
  | _ n ih =>
    by_cases hl : bits.length < outW
    · rw [foldl_held ho out bits hb hl]
      by_cases h0 : bits = []
      · subst h0; simp [emitPartial, chunks_nil outW h1]
      · rw [chunks_short h0 hl.le]
        simp [emitPartial, List.length_pos_of_ne_nil h0, groupOf]
    · have hle : outW ≤ bits.length := by omega
      conv_lhs => rw [← List.take_append_drop outW bits, List.foldl_append]
      rw [foldl_full h1 ho out _ (fun b h => hb b (List.mem_of_mem_take h)) (by simp [hle]),
        ih (bits.drop outW).length (by rw [List.length_drop]; omega) _ _
          (fun b h => hb b (List.mem_of_mem_drop h)) rfl, chunks_long h1 hle]
      simp

/-- What the regrouper does: it cuts the stream of R86 into pieces of `outW` bits. -/
theorem regroup_eq_chunks (elems : List Nat) (inW lastW : Nat) {outW : Nat} (h1 : 1 ≤ outW) (ho : outW ≤ 16) :
    regroup elems inW outW lastW = chunks outW (streamBits inW lastW elems) := by
  rw [regroup, shiftInElements_eq_foldl, Regrouper.start,
    emitPartial_foldl h1 ho [] _ (fun _ h => streamBits_lt_two h), List.nil_append]

end Sys2Proof.Machine
end

