-- ==== Sys2Proof/Laws/Rom.lean ====
section
/-! SUPPORT. What WF_ROM says, what the two lookups do, and that the configuration `State.reset` names is legal. -/

namespace Sys2Proof.Machine

/-! ### WF_ROM and the legal parameters -/

theorem singleUnit_iff (cp : Nat) : singleUnit cp = true ↔ cp ≤ 0xFFFF ∧ (cp < 0xD800 ∨ 0xDFFF < cp) := by
  simp only [singleUnit, Bool.and_eq_true, decide_eq_true_eq, Bool.not_eq_true', Bool.and_eq_false_imp,
    decide_eq_false_iff_not]
  omega

theorem configLegal_iff (c : Config) :
    configLegal c = true ↔
      romWf c = true ∧ (1 ≤ c.inDepth ∧ c.inDepth ≤ 2 ^ 20) ∧ (1 ≤ c.outDepth ∧ c.outDepth ≤ 2 ^ 20) := by
  simp only [configLegal, depthLegal, Bool.and_eq_true, decide_eq_true_eq, and_assoc]

theorem romWf_of_legal {c : Config} (h : configLegal c = true) : romWf c = true := ((configLegal_iff c).1 h).1

theorem inDepth_le_of_legal {c : Config} (h : configLegal c = true) : c.inDepth ≤ 2 ^ 20 :=
  ((configLegal_iff c).1 h).2.1.2

theorem outDepth_le_of_legal {c : Config} (h : configLegal c = true) : c.outDepth ≤ 2 ^ 20 :=
  ((configLegal_iff c).1 h).2.2.2

/-- WF_ROM, its four parts as propositions (R94). -/
theorem romWf_iff (c : Config) :
    romWf c = true ↔
      (∀ b ∈ c.blockStart0 ++ c.blockStart1, singleUnit b = true) ∧
      (1 ≤ c.blockSize ∧ c.blockStart0.length * c.blockSize = 32768 ∧ c.blockStart1.length * c.blockSize = 128) ∧
      (∀ b ∈ c.blockStart0 ++ c.blockStart1, ∀ o, o < c.blockSize → singleUnit (b + o) = true) ∧
      (c.blockStart0 ++ c.blockStart1).Pairwise (fun a b => a + c.blockSize ≤ b ∨ b + c.blockSize ≤ a) := by
  simp only [romWf, romStartsFit, romCovers, romBlocksFit, romBlocksDisjoint, domainSize, Bool.and_eq_true,
    List.all_eq_true, decide_eq_true_eq, List.mem_range, and_assoc]
  norm_num

/-- The codepoints of all blocks of both tiers, in order. -/
def romCodepoints (c : Config) : List Nat :=
  (c.blockStart0 ++ c.blockStart1).flatMap fun b => (List.range c.blockSize).map fun o => b + o

/-- W4 block by block is W4 codepoint by codepoint: "The codepoints of all blocks of both tiers are pairwise distinct"
(R94). -/
theorem romBlocksDisjoint_iff_nodup {c : Config} (h : 1 ≤ c.blockSize) :
    romBlocksDisjoint c = true ↔ (romCodepoints c).Nodup := by
  have key : ∀ a b : Nat, (a + c.blockSize ≤ b ∨ b + c.blockSize ≤ a) ↔
      List.Disjoint ((List.range c.blockSize).map fun o => a + o) ((List.range c.blockSize).map fun o => b + o) := by
    intro a b
    simp only [List.disjoint_left, List.mem_map, List.mem_range, not_exists, not_and]
    constructor
    · rintro hd x ⟨o, ho, rfl⟩ o' ho'
      omega
    · intro hd
      by_contra hn
      rcases Nat.le_total a b with hab | hab
      · exact hd (a := b) ⟨b - a, by omega, by omega⟩ 0 (by omega) rfl
      · exact hd (a := a) ⟨0, by omega, rfl⟩ (a - b) (by omega) (by omega)
  simp only [romBlocksDisjoint, decide_eq_true_eq, romCodepoints, List.nodup_flatMap]
  constructor
  · intro hp
    refine ⟨fun b _ => ?_, hp.imp fun h => (key _ _).1 h⟩
    exact List.nodup_range.map fun x y hxy => by simpa using hxy
  · rintro ⟨_, hp⟩
    exact hp.imp fun h => (key _ _).2 h

/-! ### The lookups -/

/-- What the forward lookup can answer (R96). -/
theorem fwd_eq_some_iff (c : Config) (t v cp : Nat) :
    fwd c t v = some cp ↔
      t < 2 ∧ v < domainSize t ∧
        ∃ b, (blockStarts c t)[v / c.blockSize]? = some b ∧ cp = b + v % c.blockSize := by
  unfold fwd
  by_cases ht : t ≥ 2
  · simp [ht]; omega
  by_cases hv : v ≥ domainSize t
  · simp [ht, hv]
  rw [if_neg ht, if_neg hv]
  have ht' : t < 2 := by omega
  have hv' : v < domainSize t := by omega
  cases (blockStarts c t)[v / c.blockSize]? with
  | none => simp
  | some b => simp [ht', hv', eq_comm]

/-- What the search of one tier's blocks can answer: the first block that holds the codepoint (R97). -/
theorem revInBlocks_eq_some_iff (size cp : Nat) (bs : List Nat) (i v : Nat) :
    revInBlocks size cp bs i = some v ↔
      ∃ n b, bs[n]? = some b ∧ b ≤ cp ∧ cp < b + size ∧ v = (i + n) * size + (cp - b) ∧
        ∀ m b', m < n → bs[m]? = some b' → ¬ (b' ≤ cp ∧ cp < b' + size) := by
  induction bs generalizing i with
  | nil => simp [revInBlocks]
  | cons a bs ih =>
    rw [revInBlocks]
    split_ifs with ha
    · constructor
      · intro h
        refine ⟨0, a, rfl, ha.1, ha.2, by simpa using (Option.some.inj h).symm, by simp⟩
      · rintro ⟨n, b, hb, h1, h2, rfl, hno⟩
        cases n with
        | zero => simp at hb; subst hb; simp
        | succ n => exact absurd ha (hno 0 a (by omega) rfl)
    · rw [ih]
      constructor
      · rintro ⟨n, b, hb, h1, h2, hv, hno⟩
        refine ⟨n + 1, b, by simpa using hb, h1, h2, by rw [hv]; ring_nf, ?_⟩
        intro m b' hm hb'
        cases m with
        | zero => simp at hb'; subst hb'; exact ha
        | succ m => exact hno m b' (by omega) (by simpa using hb')
      · rintro ⟨n, b, hb, h1, h2, hv, hno⟩
        cases n with
        | zero => simp at hb; subst hb; exact absurd ⟨h1, h2⟩ ha
        | succ n =>
          refine ⟨n, b, by simpa using hb, h1, h2, by rw [hv]; ring_nf, ?_⟩
          intro m b' hm hb'
          exact hno (m + 1) b' (by omega) (by simpa using hb')

theorem revInBlocks_eq_none_iff (size cp : Nat) (bs : List Nat) (i : Nat) :
    revInBlocks size cp bs i = none ↔ ∀ b ∈ bs, ¬ (b ≤ cp ∧ cp < b + size) := by
  induction bs generalizing i with
  | nil => simp [revInBlocks]
  | cons a bs ih =>
    rw [revInBlocks]
    split_ifs with ha
    · simp [ha]
    · simp only [ih, List.mem_cons, forall_eq_or_imp]
      exact ⟨fun h => ⟨ha, h⟩, fun h => h.2⟩

/-- What the reverse lookup can answer (R97). -/
theorem rev_eq_some_iff (c : Config) (cp t v : Nat) :
    rev c cp = some (t, v) ↔
      (t = 0 ∧ revInBlocks c.blockSize cp c.blockStart0 0 = some v) ∨
      (t = 1 ∧ revInBlocks c.blockSize cp c.blockStart0 0 = none ∧
        revInBlocks c.blockSize cp c.blockStart1 0 = some v) := by
  unfold rev blockStarts
  cases revInBlocks c.blockSize cp c.blockStart0 0 with
  | some v' => simp [eq_comm]
  | none => cases revInBlocks c.blockSize cp c.blockStart1 0 <;> simp [eq_comm]

theorem rev_eq_none_iff (c : Config) (cp : Nat) :
    rev c cp = none ↔ ∀ b ∈ c.blockStart0 ++ c.blockStart1, ¬ (b ≤ cp ∧ cp < b + c.blockSize) := by
  have h0 := revInBlocks_eq_none_iff c.blockSize cp c.blockStart0 0
  have h1 := revInBlocks_eq_none_iff c.blockSize cp c.blockStart1 0
  unfold rev blockStarts
  cases e0 : revInBlocks c.blockSize cp c.blockStart0 0 with
  | some v => simp only [e0, List.mem_append] at h0 ⊢; simp at h0 ⊢; obtain ⟨b, hb⟩ := h0; exact ⟨b, .inl hb.1, hb.2⟩
  | none =>
    cases e1 : revInBlocks c.blockSize cp c.blockStart1 0 with
    | some v => simp only [e1, List.mem_append] at h1 ⊢; simp at h1 ⊢; obtain ⟨b, hb⟩ := h1; exact ⟨b, .inr hb.1, hb.2⟩
    | none =>
      simp only [e0, e1, true_iff] at h0 h1
      simp only [true_iff, List.mem_append]
      exact fun b hb => hb.elim (h0 b) (h1 b)

/-- A reverse lookup names one of the two tiers (R92). -/
theorem rev_tier_lt_two {c : Config} {cp t v : Nat} (h : rev c cp = some (t, v)) : t < 2 := by
  rcases (rev_eq_some_iff c cp t v).1 h with ⟨rfl, _⟩ | ⟨rfl, _⟩ <;> omega

/-! ### The configuration of `State.reset` -/

theorem mem_testDevice_starts {b : Nat} :
    b ∈ Config.testDevice.blockStart0 ++ Config.testDevice.blockStart1 ↔
      (∃ i, i < 512 ∧ b = 0x8E00 + 32 * i) ∨ (∃ i, i < 512 ∧ b = 0x4E00 + 32 * i) ∨
        b = 0x180 ∨ b = 0x1A0 ∨ b = 0x250 ∨ b = 0x270 := by
  simp only [Config.testDevice, List.mem_append, List.mem_map, List.mem_range, List.mem_cons, List.not_mem_nil,
    or_false, or_assoc, eq_comm]

/-- TEST_ROM satisfies WF_ROM, and 64 is a legal depth (95_test_vectors.md section 1). -/
theorem testDevice_legal : configLegal Config.testDevice = true := by
  rw [configLegal_iff, romWf_iff]
  refine ⟨⟨fun b hb => ?_, ?_, fun b hb o ho => ?_, ?_⟩, by decide, by decide⟩
  · rw [singleUnit_iff]
    rcases mem_testDevice_starts.1 hb with ⟨i, hi, rfl⟩ | ⟨i, hi, rfl⟩ | rfl | rfl | rfl | rfl <;> omega
  · simp [Config.testDevice]
  · rw [singleUnit_iff]
    change o < 32 at ho
    rcases mem_testDevice_starts.1 hb with ⟨i, hi, rfl⟩ | ⟨i, hi, rfl⟩ | rfl | rfl | rfl | rfl <;> omega
  · have run : ∀ s : Nat, ((List.range 512).map fun i => s + 32 * i).Pairwise
        fun a b => a + 32 ≤ b ∨ b + 32 ≤ a := fun s =>
      List.pairwise_map.2 ((List.pairwise_lt_range (n := 512)).imp fun h => by omega)
    have mem : ∀ {s b : Nat}, b ∈ (List.range 512).map (fun i => s + 32 * i) → s ≤ b ∧ b + 32 ≤ s + 32 * 512 := by
      intro s b hb
      obtain ⟨i, hi, rfl⟩ := List.mem_map.1 hb
      have := List.mem_range.1 hi
      omega
    show List.Pairwise (fun a b => a + 32 ≤ b ∨ b + 32 ≤ a) _
    refine List.pairwise_append.2 ⟨List.pairwise_append.2 ⟨run _, run _, ?_⟩, by decide, ?_⟩
    · intro a ha b hb
      have := mem ha; have := mem hb
      omega
    · intro a ha b hb
      have h1 : 0x4E00 ≤ a := by
        rcases List.mem_append.1 ha with ha | ha <;> have := mem ha <;> omega
      have h2 : b + 32 ≤ 0x4E00 := by
        simp only [Config.testDevice, List.mem_cons, List.not_mem_nil, or_false] at hb
        omega
      omega

end Sys2Proof.Machine
end

