-- ==== Sys2Proof/Laws/State.lean ====
section
/-! SUPPORT. One lemma per field per named update of the state, each true by `rfl`, so that no proof unfolds a record
update. -/

namespace Sys2Proof.Machine

variable (s : State)

/-! ### `acceptCommand`. Acceptance (R75): CMDL, BUSY and DONE. -/

@[simp] theorem acceptCommand_cfg (w : Word) : (acceptCommand w s).cfg = s.cfg := rfl
@[simp] theorem acceptCommand_busy (w : Word) : (acceptCommand w s).busy = true := rfl
@[simp] theorem acceptCommand_done (w : Word) : (acceptCommand w s).done = false := rfl
@[simp] theorem acceptCommand_err (w : Word) : (acceptCommand w s).err = s.err := rfl
@[simp] theorem acceptCommand_haz (w : Word) : (acceptCommand w s).haz = s.haz := rfl
@[simp] theorem acceptCommand_errCode (w : Word) : (acceptCommand w s).errCode = s.errCode := rfl
@[simp] theorem acceptCommand_errPos (w : Word) : (acceptCommand w s).errPos = s.errPos := rfl
@[simp] theorem acceptCommand_inLen (w : Word) : (acceptCommand w s).inLen = s.inLen := rfl
@[simp] theorem acceptCommand_outLen (w : Word) : (acceptCommand w s).outLen = s.outLen := rfl
@[simp] theorem acceptCommand_lkRes (w : Word) : (acceptCommand w s).lkRes = s.lkRes := rfl
@[simp] theorem acceptCommand_ie (w : Word) : (acceptCommand w s).ie = s.ie := rfl
@[simp] theorem acceptCommand_cmdl (w : Word) : (acceptCommand w s).cmdl = w := rfl
@[simp] theorem acceptCommand_inMem (w : Word) : (acceptCommand w s).inMem = s.inMem := rfl
@[simp] theorem acceptCommand_outMem (w : Word) : (acceptCommand w s).outMem = s.outMem := rfl
@[simp] theorem acceptCommand_hostRegs (w : Word) : (acceptCommand w s).hostRegs = s.hostRegs := rfl
@[simp] theorem acceptCommand_script (w : Word) : (acceptCommand w s).script = s.script := rfl
@[simp] theorem acceptCommand_draws (w : Word) : (acceptCommand w s).draws = s.draws := rfl
@[simp] theorem acceptCommand_epoch (w : Word) : (acceptCommand w s).epoch = s.epoch := rfl

/-! ### `finish`. The writes of every completion (R77): BUSY and DONE. -/

@[simp] theorem finish_cfg : (finish s).cfg = s.cfg := rfl
@[simp] theorem finish_busy : (finish s).busy = false := rfl
@[simp] theorem finish_done : (finish s).done = true := rfl
@[simp] theorem finish_err : (finish s).err = s.err := rfl
@[simp] theorem finish_haz : (finish s).haz = s.haz := rfl
@[simp] theorem finish_errCode : (finish s).errCode = s.errCode := rfl
@[simp] theorem finish_errPos : (finish s).errPos = s.errPos := rfl
@[simp] theorem finish_inLen : (finish s).inLen = s.inLen := rfl
@[simp] theorem finish_outLen : (finish s).outLen = s.outLen := rfl
@[simp] theorem finish_lkRes : (finish s).lkRes = s.lkRes := rfl
@[simp] theorem finish_ie : (finish s).ie = s.ie := rfl
@[simp] theorem finish_cmdl : (finish s).cmdl = s.cmdl := rfl
@[simp] theorem finish_inMem : (finish s).inMem = s.inMem := rfl
@[simp] theorem finish_outMem : (finish s).outMem = s.outMem := rfl
@[simp] theorem finish_hostRegs : (finish s).hostRegs = s.hostRegs := rfl
@[simp] theorem finish_script : (finish s).script = s.script := rfl
@[simp] theorem finish_draws : (finish s).draws = s.draws := rfl
@[simp] theorem finish_epoch : (finish s).epoch = s.epoch := rfl

/-! ### `reportSuccess`. The report of a command that raised no error (R77). -/

@[simp] theorem reportSuccess_cfg : (reportSuccess s).cfg = s.cfg := rfl
@[simp] theorem reportSuccess_busy : (reportSuccess s).busy = s.busy := rfl
@[simp] theorem reportSuccess_done : (reportSuccess s).done = s.done := rfl
@[simp] theorem reportSuccess_err : (reportSuccess s).err = false := rfl
@[simp] theorem reportSuccess_haz : (reportSuccess s).haz = s.haz := rfl
@[simp] theorem reportSuccess_errCode : (reportSuccess s).errCode = 0 := rfl
@[simp] theorem reportSuccess_errPos : (reportSuccess s).errPos = 0 := rfl
@[simp] theorem reportSuccess_inLen : (reportSuccess s).inLen = s.inLen := rfl
@[simp] theorem reportSuccess_outLen : (reportSuccess s).outLen = s.outLen := rfl
@[simp] theorem reportSuccess_lkRes : (reportSuccess s).lkRes = s.lkRes := rfl
@[simp] theorem reportSuccess_ie : (reportSuccess s).ie = s.ie := rfl
@[simp] theorem reportSuccess_cmdl : (reportSuccess s).cmdl = s.cmdl := rfl
@[simp] theorem reportSuccess_inMem : (reportSuccess s).inMem = s.inMem := rfl
@[simp] theorem reportSuccess_outMem : (reportSuccess s).outMem = s.outMem := rfl
@[simp] theorem reportSuccess_hostRegs : (reportSuccess s).hostRegs = s.hostRegs := rfl
@[simp] theorem reportSuccess_script : (reportSuccess s).script = s.script := rfl
@[simp] theorem reportSuccess_draws : (reportSuccess s).draws = s.draws := rfl
@[simp] theorem reportSuccess_epoch : (reportSuccess s).epoch = s.epoch := rfl

/-! ### `reportError`. The report of an error (R121). -/

@[simp] theorem reportError_cfg (e : Raised) : (reportError e s).cfg = s.cfg := rfl
@[simp] theorem reportError_busy (e : Raised) : (reportError e s).busy = s.busy := rfl
@[simp] theorem reportError_done (e : Raised) : (reportError e s).done = s.done := rfl
@[simp] theorem reportError_err (e : Raised) : (reportError e s).err = true := rfl
@[simp] theorem reportError_haz (e : Raised) : (reportError e s).haz = s.haz := rfl
@[simp] theorem reportError_errCode (e : Raised) : (reportError e s).errCode = errCodeOf e.err := rfl
@[simp] theorem reportError_errPos (e : Raised) : (reportError e s).errPos = posWord e.pos := rfl
@[simp] theorem reportError_inLen (e : Raised) : (reportError e s).inLen = s.inLen := rfl
@[simp] theorem reportError_outLen (e : Raised) : (reportError e s).outLen = s.outLen := rfl
@[simp] theorem reportError_lkRes (e : Raised) : (reportError e s).lkRes = s.lkRes := rfl
@[simp] theorem reportError_ie (e : Raised) : (reportError e s).ie = s.ie := rfl
@[simp] theorem reportError_cmdl (e : Raised) : (reportError e s).cmdl = s.cmdl := rfl
@[simp] theorem reportError_inMem (e : Raised) : (reportError e s).inMem = s.inMem := rfl
@[simp] theorem reportError_outMem (e : Raised) : (reportError e s).outMem = s.outMem := rfl
@[simp] theorem reportError_hostRegs (e : Raised) : (reportError e s).hostRegs = s.hostRegs := rfl
@[simp] theorem reportError_script (e : Raised) : (reportError e s).script = s.script := rfl
@[simp] theorem reportError_draws (e : Raised) : (reportError e s).draws = s.draws := rfl
@[simp] theorem reportError_epoch (e : Raised) : (reportError e s).epoch = s.epoch := rfl

/-! ### `dropOutput`. The output of a failed buffer command (R121). -/

@[simp] theorem dropOutput_cfg : (dropOutput s).cfg = s.cfg := rfl
@[simp] theorem dropOutput_busy : (dropOutput s).busy = s.busy := rfl
@[simp] theorem dropOutput_done : (dropOutput s).done = s.done := rfl
@[simp] theorem dropOutput_err : (dropOutput s).err = s.err := rfl
@[simp] theorem dropOutput_haz : (dropOutput s).haz = s.haz := rfl
@[simp] theorem dropOutput_errCode : (dropOutput s).errCode = s.errCode := rfl
@[simp] theorem dropOutput_errPos : (dropOutput s).errPos = s.errPos := rfl
@[simp] theorem dropOutput_inLen : (dropOutput s).inLen = s.inLen := rfl
@[simp] theorem dropOutput_outLen : (dropOutput s).outLen = 0 := rfl
@[simp] theorem dropOutput_lkRes : (dropOutput s).lkRes = s.lkRes := rfl
@[simp] theorem dropOutput_ie : (dropOutput s).ie = s.ie := rfl
@[simp] theorem dropOutput_cmdl : (dropOutput s).cmdl = s.cmdl := rfl
@[simp] theorem dropOutput_inMem : (dropOutput s).inMem = s.inMem := rfl
@[simp] theorem dropOutput_outMem : (dropOutput s).outMem = [] := rfl
@[simp] theorem dropOutput_hostRegs : (dropOutput s).hostRegs = s.hostRegs := rfl
@[simp] theorem dropOutput_script : (dropOutput s).script = s.script := rfl
@[simp] theorem dropOutput_draws : (dropOutput s).draws = s.draws := rfl
@[simp] theorem dropOutput_epoch : (dropOutput s).epoch = s.epoch := rfl

/-! ### `commitBuffer`. A buffer command that succeeded (R77). -/

@[simp] theorem commitBuffer_cfg (out : List Word) : (commitBuffer out s).cfg = s.cfg := rfl
@[simp] theorem commitBuffer_busy (out : List Word) : (commitBuffer out s).busy = false := rfl
@[simp] theorem commitBuffer_done (out : List Word) : (commitBuffer out s).done = true := rfl
@[simp] theorem commitBuffer_err (out : List Word) : (commitBuffer out s).err = false := rfl
@[simp] theorem commitBuffer_haz (out : List Word) : (commitBuffer out s).haz = s.haz := rfl
@[simp] theorem commitBuffer_errCode (out : List Word) : (commitBuffer out s).errCode = 0 := rfl
@[simp] theorem commitBuffer_errPos (out : List Word) : (commitBuffer out s).errPos = 0 := rfl
@[simp] theorem commitBuffer_inLen (out : List Word) : (commitBuffer out s).inLen = s.inLen := rfl
@[simp] theorem commitBuffer_outLen (out : List Word) : (commitBuffer out s).outLen = BitVec.ofNat 32 out.length := rfl
@[simp] theorem commitBuffer_lkRes (out : List Word) : (commitBuffer out s).lkRes = s.lkRes := rfl
@[simp] theorem commitBuffer_ie (out : List Word) : (commitBuffer out s).ie = s.ie := rfl
@[simp] theorem commitBuffer_cmdl (out : List Word) : (commitBuffer out s).cmdl = s.cmdl := rfl
@[simp] theorem commitBuffer_inMem (out : List Word) : (commitBuffer out s).inMem = s.inMem := rfl
@[simp] theorem commitBuffer_outMem (out : List Word) : (commitBuffer out s).outMem = Memory.storeAll s.outMem 0 out := rfl
@[simp] theorem commitBuffer_hostRegs (out : List Word) : (commitBuffer out s).hostRegs = s.hostRegs := rfl
@[simp] theorem commitBuffer_script (out : List Word) : (commitBuffer out s).script = s.script := rfl
@[simp] theorem commitBuffer_draws (out : List Word) : (commitBuffer out s).draws = s.draws := rfl
@[simp] theorem commitBuffer_epoch (out : List Word) : (commitBuffer out s).epoch = s.epoch := rfl

/-! ### `commitLookup`. A lookup command that succeeded (R77). -/

@[simp] theorem commitLookup_cfg (r : Word) : (commitLookup r s).cfg = s.cfg := rfl
@[simp] theorem commitLookup_busy (r : Word) : (commitLookup r s).busy = false := rfl
@[simp] theorem commitLookup_done (r : Word) : (commitLookup r s).done = true := rfl
@[simp] theorem commitLookup_err (r : Word) : (commitLookup r s).err = false := rfl
@[simp] theorem commitLookup_haz (r : Word) : (commitLookup r s).haz = s.haz := rfl
@[simp] theorem commitLookup_errCode (r : Word) : (commitLookup r s).errCode = 0 := rfl
@[simp] theorem commitLookup_errPos (r : Word) : (commitLookup r s).errPos = 0 := rfl
@[simp] theorem commitLookup_inLen (r : Word) : (commitLookup r s).inLen = s.inLen := rfl
@[simp] theorem commitLookup_outLen (r : Word) : (commitLookup r s).outLen = s.outLen := rfl
@[simp] theorem commitLookup_lkRes (r : Word) : (commitLookup r s).lkRes = r := rfl
@[simp] theorem commitLookup_ie (r : Word) : (commitLookup r s).ie = s.ie := rfl
@[simp] theorem commitLookup_cmdl (r : Word) : (commitLookup r s).cmdl = s.cmdl := rfl
@[simp] theorem commitLookup_inMem (r : Word) : (commitLookup r s).inMem = s.inMem := rfl
@[simp] theorem commitLookup_outMem (r : Word) : (commitLookup r s).outMem = s.outMem := rfl
@[simp] theorem commitLookup_hostRegs (r : Word) : (commitLookup r s).hostRegs = s.hostRegs := rfl
@[simp] theorem commitLookup_script (r : Word) : (commitLookup r s).script = s.script := rfl
@[simp] theorem commitLookup_draws (r : Word) : (commitLookup r s).draws = s.draws := rfl
@[simp] theorem commitLookup_epoch (r : Word) : (commitLookup r s).epoch = s.epoch := rfl

/-! ### `resetDevice`. Reset (R35, R138). -/

@[simp] theorem resetDevice_cfg : (resetDevice s).cfg = s.cfg := rfl
@[simp] theorem resetDevice_busy : (resetDevice s).busy = false := rfl
@[simp] theorem resetDevice_done : (resetDevice s).done = false := rfl
@[simp] theorem resetDevice_err : (resetDevice s).err = false := rfl
@[simp] theorem resetDevice_haz : (resetDevice s).haz = false := rfl
@[simp] theorem resetDevice_errCode : (resetDevice s).errCode = 0 := rfl
@[simp] theorem resetDevice_errPos : (resetDevice s).errPos = 0 := rfl
@[simp] theorem resetDevice_inLen : (resetDevice s).inLen = 0 := rfl
@[simp] theorem resetDevice_outLen : (resetDevice s).outLen = 0 := rfl
@[simp] theorem resetDevice_lkRes : (resetDevice s).lkRes = 0 := rfl
@[simp] theorem resetDevice_ie : (resetDevice s).ie = false := rfl
@[simp] theorem resetDevice_cmdl : (resetDevice s).cmdl = 0 := rfl
@[simp] theorem resetDevice_inMem : (resetDevice s).inMem = [] := rfl
@[simp] theorem resetDevice_outMem : (resetDevice s).outMem = [] := rfl
@[simp] theorem resetDevice_hostRegs : (resetDevice s).hostRegs = s.hostRegs := rfl
@[simp] theorem resetDevice_script : (resetDevice s).script = s.script := rfl
@[simp] theorem resetDevice_draws : (resetDevice s).draws = s.draws := rfl
@[simp] theorem resetDevice_epoch : (resetDevice s).epoch = s.epoch + 1 := rfl

/-! ### `newMoment`. A new moment for unspecified reads. -/

@[simp] theorem newMoment_cfg : (newMoment s).cfg = s.cfg := rfl
@[simp] theorem newMoment_busy : (newMoment s).busy = s.busy := rfl
@[simp] theorem newMoment_done : (newMoment s).done = s.done := rfl
@[simp] theorem newMoment_err : (newMoment s).err = s.err := rfl
@[simp] theorem newMoment_haz : (newMoment s).haz = s.haz := rfl
@[simp] theorem newMoment_errCode : (newMoment s).errCode = s.errCode := rfl
@[simp] theorem newMoment_errPos : (newMoment s).errPos = s.errPos := rfl
@[simp] theorem newMoment_inLen : (newMoment s).inLen = s.inLen := rfl
@[simp] theorem newMoment_outLen : (newMoment s).outLen = s.outLen := rfl
@[simp] theorem newMoment_lkRes : (newMoment s).lkRes = s.lkRes := rfl
@[simp] theorem newMoment_ie : (newMoment s).ie = s.ie := rfl
@[simp] theorem newMoment_cmdl : (newMoment s).cmdl = s.cmdl := rfl
@[simp] theorem newMoment_inMem : (newMoment s).inMem = s.inMem := rfl
@[simp] theorem newMoment_outMem : (newMoment s).outMem = s.outMem := rfl
@[simp] theorem newMoment_hostRegs : (newMoment s).hostRegs = s.hostRegs := rfl
@[simp] theorem newMoment_script : (newMoment s).script = s.script := rfl
@[simp] theorem newMoment_draws : (newMoment s).draws = s.draws + 1 := rfl
@[simp] theorem newMoment_epoch : (newMoment s).epoch = s.epoch := rfl

/-! ### `dropWrite`. A dropped write (R144). -/

@[simp] theorem dropWrite_cfg : (dropWrite s).cfg = s.cfg := rfl
@[simp] theorem dropWrite_busy : (dropWrite s).busy = s.busy := rfl
@[simp] theorem dropWrite_done : (dropWrite s).done = s.done := rfl
@[simp] theorem dropWrite_err : (dropWrite s).err = s.err := rfl
@[simp] theorem dropWrite_haz : (dropWrite s).haz = true := rfl
@[simp] theorem dropWrite_errCode : (dropWrite s).errCode = s.errCode := rfl
@[simp] theorem dropWrite_errPos : (dropWrite s).errPos = s.errPos := rfl
@[simp] theorem dropWrite_inLen : (dropWrite s).inLen = s.inLen := rfl
@[simp] theorem dropWrite_outLen : (dropWrite s).outLen = s.outLen := rfl
@[simp] theorem dropWrite_lkRes : (dropWrite s).lkRes = s.lkRes := rfl
@[simp] theorem dropWrite_ie : (dropWrite s).ie = s.ie := rfl
@[simp] theorem dropWrite_cmdl : (dropWrite s).cmdl = s.cmdl := rfl
@[simp] theorem dropWrite_inMem : (dropWrite s).inMem = s.inMem := rfl
@[simp] theorem dropWrite_outMem : (dropWrite s).outMem = s.outMem := rfl
@[simp] theorem dropWrite_hostRegs : (dropWrite s).hostRegs = s.hostRegs := rfl
@[simp] theorem dropWrite_script : (dropWrite s).script = s.script := rfl
@[simp] theorem dropWrite_draws : (dropWrite s).draws = s.draws := rfl
@[simp] theorem dropWrite_epoch : (dropWrite s).epoch = s.epoch := rfl

/-! ### `raiseError`, by the class of the command (R121). -/

@[simp] theorem raiseError_buffer_cfg (e : Raised) : (raiseError .buffer e s).cfg = s.cfg := rfl
@[simp] theorem raiseError_buffer_busy (e : Raised) : (raiseError .buffer e s).busy = false := rfl
@[simp] theorem raiseError_buffer_done (e : Raised) : (raiseError .buffer e s).done = true := rfl
@[simp] theorem raiseError_buffer_err (e : Raised) : (raiseError .buffer e s).err = true := rfl
@[simp] theorem raiseError_buffer_haz (e : Raised) : (raiseError .buffer e s).haz = s.haz := rfl
@[simp] theorem raiseError_buffer_errCode (e : Raised) : (raiseError .buffer e s).errCode = errCodeOf e.err := rfl
@[simp] theorem raiseError_buffer_errPos (e : Raised) : (raiseError .buffer e s).errPos = posWord e.pos := rfl
@[simp] theorem raiseError_buffer_inLen (e : Raised) : (raiseError .buffer e s).inLen = s.inLen := rfl
@[simp] theorem raiseError_buffer_outLen (e : Raised) : (raiseError .buffer e s).outLen = 0 := rfl
@[simp] theorem raiseError_buffer_lkRes (e : Raised) : (raiseError .buffer e s).lkRes = s.lkRes := rfl
@[simp] theorem raiseError_buffer_ie (e : Raised) : (raiseError .buffer e s).ie = s.ie := rfl
@[simp] theorem raiseError_buffer_cmdl (e : Raised) : (raiseError .buffer e s).cmdl = s.cmdl := rfl
@[simp] theorem raiseError_buffer_inMem (e : Raised) : (raiseError .buffer e s).inMem = s.inMem := rfl
@[simp] theorem raiseError_buffer_outMem (e : Raised) : (raiseError .buffer e s).outMem = [] := rfl
@[simp] theorem raiseError_buffer_hostRegs (e : Raised) : (raiseError .buffer e s).hostRegs = s.hostRegs := rfl
@[simp] theorem raiseError_buffer_script (e : Raised) : (raiseError .buffer e s).script = s.script := rfl
@[simp] theorem raiseError_buffer_draws (e : Raised) : (raiseError .buffer e s).draws = s.draws := rfl
@[simp] theorem raiseError_buffer_epoch (e : Raised) : (raiseError .buffer e s).epoch = s.epoch := rfl

@[simp] theorem raiseError_lookup_cfg (e : Raised) : (raiseError .lookup e s).cfg = s.cfg := rfl
@[simp] theorem raiseError_lookup_busy (e : Raised) : (raiseError .lookup e s).busy = false := rfl
@[simp] theorem raiseError_lookup_done (e : Raised) : (raiseError .lookup e s).done = true := rfl
@[simp] theorem raiseError_lookup_err (e : Raised) : (raiseError .lookup e s).err = true := rfl
@[simp] theorem raiseError_lookup_haz (e : Raised) : (raiseError .lookup e s).haz = s.haz := rfl
@[simp] theorem raiseError_lookup_errCode (e : Raised) : (raiseError .lookup e s).errCode = errCodeOf e.err := rfl
@[simp] theorem raiseError_lookup_errPos (e : Raised) : (raiseError .lookup e s).errPos = posWord e.pos := rfl
@[simp] theorem raiseError_lookup_inLen (e : Raised) : (raiseError .lookup e s).inLen = s.inLen := rfl
@[simp] theorem raiseError_lookup_outLen (e : Raised) : (raiseError .lookup e s).outLen = s.outLen := rfl
@[simp] theorem raiseError_lookup_lkRes (e : Raised) : (raiseError .lookup e s).lkRes = 0 := rfl
@[simp] theorem raiseError_lookup_ie (e : Raised) : (raiseError .lookup e s).ie = s.ie := rfl
@[simp] theorem raiseError_lookup_cmdl (e : Raised) : (raiseError .lookup e s).cmdl = s.cmdl := rfl
@[simp] theorem raiseError_lookup_inMem (e : Raised) : (raiseError .lookup e s).inMem = s.inMem := rfl
@[simp] theorem raiseError_lookup_outMem (e : Raised) : (raiseError .lookup e s).outMem = s.outMem := rfl
@[simp] theorem raiseError_lookup_hostRegs (e : Raised) : (raiseError .lookup e s).hostRegs = s.hostRegs := rfl
@[simp] theorem raiseError_lookup_script (e : Raised) : (raiseError .lookup e s).script = s.script := rfl
@[simp] theorem raiseError_lookup_draws (e : Raised) : (raiseError .lookup e s).draws = s.draws := rfl
@[simp] theorem raiseError_lookup_epoch (e : Raised) : (raiseError .lookup e s).epoch = s.epoch := rfl

@[simp] theorem raiseError_none_cfg (e : Raised) : (raiseError .none e s).cfg = s.cfg := rfl
@[simp] theorem raiseError_none_busy (e : Raised) : (raiseError .none e s).busy = false := rfl
@[simp] theorem raiseError_none_done (e : Raised) : (raiseError .none e s).done = true := rfl
@[simp] theorem raiseError_none_err (e : Raised) : (raiseError .none e s).err = true := rfl
@[simp] theorem raiseError_none_haz (e : Raised) : (raiseError .none e s).haz = s.haz := rfl
@[simp] theorem raiseError_none_errCode (e : Raised) : (raiseError .none e s).errCode = errCodeOf e.err := rfl
@[simp] theorem raiseError_none_errPos (e : Raised) : (raiseError .none e s).errPos = posWord e.pos := rfl
@[simp] theorem raiseError_none_inLen (e : Raised) : (raiseError .none e s).inLen = s.inLen := rfl
@[simp] theorem raiseError_none_outLen (e : Raised) : (raiseError .none e s).outLen = s.outLen := rfl
@[simp] theorem raiseError_none_lkRes (e : Raised) : (raiseError .none e s).lkRes = s.lkRes := rfl
@[simp] theorem raiseError_none_ie (e : Raised) : (raiseError .none e s).ie = s.ie := rfl
@[simp] theorem raiseError_none_cmdl (e : Raised) : (raiseError .none e s).cmdl = s.cmdl := rfl
@[simp] theorem raiseError_none_inMem (e : Raised) : (raiseError .none e s).inMem = s.inMem := rfl
@[simp] theorem raiseError_none_outMem (e : Raised) : (raiseError .none e s).outMem = s.outMem := rfl
@[simp] theorem raiseError_none_hostRegs (e : Raised) : (raiseError .none e s).hostRegs = s.hostRegs := rfl
@[simp] theorem raiseError_none_script (e : Raised) : (raiseError .none e s).script = s.script := rfl
@[simp] theorem raiseError_none_draws (e : Raised) : (raiseError .none e s).draws = s.draws := rfl
@[simp] theorem raiseError_none_epoch (e : Raised) : (raiseError .none e s).epoch = s.epoch := rfl

end Sys2Proof.Machine
end

