-- ==== Sys2Proof/Laws/Ops.lean ====
section
/-! SUPPORT. What each shared operation can do, said once. -/

namespace Sys2Proof.Machine

/-! ### The checks of the buffer commands -/

theorem checkInputLength_ok {s : State} (h : s.inLen.toNat ≤ s.cfg.inDepth) : checkInputLength s = .ok () := by
  simp [checkInputLength, Nat.not_lt.2 h]

theorem checkInputLength_error {s : State} (h : s.cfg.inDepth < s.inLen.toNat) :
    checkInputLength s = .error ⟨.inputLength, none⟩ := by
  simp [checkInputLength, h]

theorem checkCapacity_ok {s : State} {out : List Word} (h : out.length ≤ s.cfg.outDepth) :
    checkCapacity s out = .ok out := by
  simp [checkCapacity, Nat.not_lt.2 h]

theorem checkCapacity_error {s : State} {out : List Word} (h : s.cfg.outDepth < out.length) :
    checkCapacity s out = .error ⟨.outputCapacity, none⟩ := by
  simp [checkCapacity, h]

/-- Whatever passes the capacity check fits OUT_MEM and is what was checked. -/
theorem checkCapacity_eq_ok {s : State} {out r : List Word} (h : checkCapacity s out = .ok r) :
    r = out ∧ out.length ≤ s.cfg.outDepth := by
  unfold checkCapacity at h
  split_ifs at h with hc
  exact ⟨(Except.ok.inj h).symm, by omega⟩

/-! ### The engine's view of IN_MEM -/

@[simp] theorem inEntries_length (s : State) : (inEntries s).length = s.inLen.toNat := by simp [inEntries]

theorem inEntries_getElem? (s : State) (i : Nat) :
    (inEntries s)[i]? = if i < s.inLen.toNat then some (inEntry s i) else none := by
  by_cases h : i < s.inLen.toNat <;> simp [inEntries, h]

/-- An entry depends on the input buffer and the reset epoch alone. -/
theorem inEntry_congr {s t : State} (h : t.inMem = s.inMem) (he : t.epoch = s.epoch) (i : Nat) :
    inEntry t i = inEntry s i := by
  simp [inEntry, h, he]

theorem inEntries_congr {s t : State} (h : t.inMem = s.inMem) (he : t.epoch = s.epoch) (hl : t.inLen = s.inLen) :
    inEntries t = inEntries s := by
  simp only [inEntries, hl]
  exact List.map_congr_left fun i _ => inEntry_congr h he i

/-! ### The outcomes of the buffer commands fit OUT_MEM -/

theorem resizeOutcome_length {inW outW lastW : Nat} {s : State} {out : List Word}
    (h : resizeOutcome inW outW lastW s = .ok out) : out.length ≤ s.cfg.outDepth := by
  unfold resizeOutcome at h
  split at h
  · split at h
    · cases h
    · obtain ⟨rfl, hl⟩ := checkCapacity_eq_ok h; exact hl
  · cases h

theorem encodeOutcome_length {s : State} {out : List Word} (h : encodeOutcome s = .ok out) :
    out.length ≤ s.cfg.outDepth := by
  unfold encodeOutcome at h
  split at h
  · cases h
  · split at h
    · cases h
    · obtain ⟨rfl, hl⟩ := checkCapacity_eq_ok h; exact hl

theorem decodeOutcome_length {s : State} {out : List Word} (h : decodeOutcome s = .ok out) :
    out.length ≤ s.cfg.outDepth := by
  unfold decodeOutcome at h
  split at h
  · cases h
  · split at h
    · cases h
    · obtain ⟨rfl, hl⟩ := checkCapacity_eq_ok h; exact hl

/-! ### LKRES of a lookup that succeeded has HIT (R72) -/

theorem hit_of_or (n : Nat) : (BitVec.ofNat 32 (1 <<< 31 ||| n)).getLsbD 31 = true := by
  rw [BitVec.getLsbD_ofNat, Nat.testBit_or, Nat.testBit_shiftLeft]
  rfl

theorem fwdWord_hit (cp : Nat) : (fwdWord cp).getLsbD 31 = true := hit_of_or cp

theorem revWord_hit (t v : Nat) : (revWord t v).getLsbD 31 = true := by
  rw [revWord, Nat.or_assoc]; exact hit_of_or _

theorem fwdOutcome_hit {t v : Nat} {c : Config} {w : Word} (h : fwdOutcome t v c = .ok w) : w.getLsbD 31 = true := by
  unfold fwdOutcome at h
  split_ifs at h
  split at h
  · cases h
  · cases h; exact fwdWord_hit _

theorem revOutcome_hit {cp : Nat} {c : Config} {w : Word} (h : revOutcome cp c = .ok w) : w.getLsbD 31 = true := by
  unfold revOutcome at h
  split_ifs at h
  split at h
  · cases h
  · cases h; exact revWord_hit _ _

/-! ### The two ways a command can complete -/

/-- A buffer command commits its result, or takes its error (R77, R121). -/
theorem completeBuffer_cases (r : Except Raised (List Word)) (s : State) :
    (∃ out, r = .ok out ∧ completeBuffer r s = commitBuffer out s) ∨
    (∃ e, r = .error e ∧ completeBuffer r s = raiseError .buffer e s) := by
  cases r with
  | ok out => exact .inl ⟨out, rfl, rfl⟩
  | error e => exact .inr ⟨e, rfl, rfl⟩

/-- A lookup command commits its result, or takes its error (R77, R121). -/
theorem completeLookup_cases (r : Except Raised Word) (s : State) :
    (∃ w, r = .ok w ∧ completeLookup r s = commitLookup w s) ∨
    (∃ e, r = .error e ∧ completeLookup r s = raiseError .lookup e s) := by
  cases r with
  | ok w => exact .inl ⟨w, rfl, rfl⟩
  | error e => exact .inr ⟨e, rfl, rfl⟩

/-! ### What a command can do -/

/-- The one inversion of `exec`: the writes of NOP, those of CLEAR, a buffer command's completion with a result that fits
OUT_MEM, or a lookup command's completion with a result that has HIT. -/
theorem exec_cases (i : Instr) (s : State) :
    exec i s = .next (finish s) ∨
    exec i s = .next (finish (reportSuccess { s with outLen := 0, lkRes := 0, haz := false })) ∨
    (∃ r, exec i s = .next (completeBuffer r s) ∧ ∀ out, r = .ok out → out.length ≤ s.cfg.outDepth) ∨
    (∃ r, exec i s = .next (completeLookup r s) ∧ ∀ w, r = .ok w → w.getLsbD 31 = true) := by
  cases i with
  | nop => exact .inl rfl
  | resize => exact .inr (.inr (.inl ⟨_, rfl, fun _ h => resizeOutcome_length h⟩))
  | encode => exact .inr (.inr (.inl ⟨_, rfl, fun _ h => encodeOutcome_length h⟩))
  | decode => exact .inr (.inr (.inl ⟨_, rfl, fun _ h => decodeOutcome_length h⟩))
  | fwd => exact .inr (.inr (.inr ⟨_, rfl, fun _ h => fwdOutcome_hit h⟩))
  | rev => exact .inr (.inr (.inr ⟨_, rfl, fun _ h => revOutcome_hit h⟩))
  | clear => exact .inr (.inl rfl)

end Sys2Proof.Machine
end

