-- ==== Sys2Proof/Laws/PerInstr.lean ====
section
/-! SUPPORT. Statements made for each constructor of `Instr`: the word of a well-formed command selects its own row of
the opcode map (30_encoding.md R63). -/

namespace Sys2Proof.Laws

/-- The format column of R63. -/
def formatOf : Instr → Format
  | .nop => .n
  | .resize _ _ _ => .w
  | .encode => .n
  | .decode => .n
  | .fwd _ _ => .l
  | .rev _ => .c
  | .clear => .n

/-- The OP column of R63. -/
def opcodeOf : Instr → Nat
  | .nop => 0
  | .resize _ _ _ => 1
  | .encode => 2
  | .decode => 3
  | .fwd _ _ => 4
  | .rev _ => 5
  | .clear => 6

/-- A field that fits its width has no bit above it. -/
theorem testBit_field {n w : Nat} (h : n < 2 ^ w) {j : Nat} (hj : w ≤ j) : n.testBit j = false :=
  Nat.testBit_lt_two_pow (lt_of_lt_of_le h (Nat.pow_le_pow_right two_pos hj))

def EncodesToItsRow.Statement (i : Instr) : Prop := i.wf = true → selects (formatOf i) (opcodeOf i) (encode i) = true

theorem EncodesToItsRow.nop : EncodesToItsRow.Statement .nop := fun _ => rfl

theorem EncodesToItsRow.resize (inW outW lastW : Nat) : EncodesToItsRow.Statement (.resize inW outW lastW) := by
  intro h
  simp only [Instr.wf, Bool.and_eq_true, decide_eq_true_eq] at h
  obtain ⟨⟨hi, ho⟩, hl⟩ := h
  rw [selects_iff]
  apply BitVec.eq_of_getLsbD_eq
  intro k hk
  simp only [encode, encodeNat, formatOf, opcodeOf, Format.mask, BitVec.getLsbD_and, BitVec.getLsbD_ofNat,
    Nat.testBit_or, Nat.testBit_shiftLeft]
  interval_cases k <;> simp [testBit_field hi, testBit_field ho, testBit_field hl] <;> decide

theorem EncodesToItsRow.encode : EncodesToItsRow.Statement .encode := fun _ => rfl

theorem EncodesToItsRow.decode : EncodesToItsRow.Statement .decode := fun _ => rfl

theorem EncodesToItsRow.fwd (tier value : Nat) : EncodesToItsRow.Statement (.fwd tier value) := by
  intro h
  simp only [Instr.wf, Bool.and_eq_true, decide_eq_true_eq] at h
  obtain ⟨ht, hv⟩ := h
  rw [selects_iff]
  apply BitVec.eq_of_getLsbD_eq
  intro k hk
  simp only [Sys2Proof.encode, encodeNat, formatOf, opcodeOf, Format.mask, BitVec.getLsbD_and, BitVec.getLsbD_ofNat,
    Nat.testBit_or, Nat.testBit_shiftLeft]
  interval_cases k <;> simp [testBit_field ht, testBit_field hv] <;> decide

theorem EncodesToItsRow.rev (cp : Nat) : EncodesToItsRow.Statement (.rev cp) := by
  intro h
  simp only [Instr.wf, decide_eq_true_eq] at h
  rw [selects_iff]
  apply BitVec.eq_of_getLsbD_eq
  intro k hk
  simp only [Sys2Proof.encode, encodeNat, formatOf, opcodeOf, Format.mask, BitVec.getLsbD_and, BitVec.getLsbD_ofNat,
    Nat.testBit_or, Nat.testBit_shiftLeft]
  interval_cases k <;> simp [testBit_field h] <;> decide

theorem EncodesToItsRow.clear : EncodesToItsRow.Statement .clear := fun _ => rfl

end Sys2Proof.Laws
end

