-- ==== Sys2Proof/Laws/Step.lean ====
section
/-! SUPPORT. What a step and a turn can do, said once. -/

namespace Sys2Proof.Machine

/-! ### The step -/

theorem step_nil {s : State} (h : s.script = []) : step s = engineTurn s := by
  simp [step, h]

theorem step_cons {s : State} {t : Turn} {ts : List Turn} (h : s.script = t :: ts) :
    step s = takeTurn t { s with script := ts } := by
  simp [step, h]

/-- A run of one step more: the step's next state, then the rest. -/
theorem run_succ (k : Nat) {s t : State} (h : step s = .next t) :
    Sys2Proof.core.run (k + 1) s = Sys2Proof.core.run k t := by
  have h' : Sys2Proof.core.step s = .next t := h
  simp only [Host.Core.run, h']

theorem engineTurn_idle {s : State} (h : s.busy = false) : engineTurn s = .next s := by
  simp [engineTurn, h]

theorem engineTurn_busy {s : State} (h : s.busy = true) : engineTurn s = completeCommand (newMoment s) := by
  simp [engineTurn, h]

/-- What the completion step can do: a command's completion, or the illegal word's error. -/
theorem completeCommand_cases (s : State) :
    (∃ i, decodeWord s.cmdl = .ok i ∧ completeCommand s = exec i s) ∨
    (∃ e, decodeWord s.cmdl = .error e ∧
      completeCommand s = .next (raiseError .none ⟨.illegalCommand, none⟩ s)) := by
  unfold completeCommand
  cases h : decodeWord s.cmdl with
  | ok i => exact .inl ⟨i, rfl, rfl⟩
  | error e => exact .inr ⟨e, rfl, rfl⟩

/-! ### Host accesses -/

/-- What a host write can do, by its target. -/
theorem hostWrite_cases (a : Addr) (v : Word) (s : State) :
    (target s.cfg a = .ctrl ∧ hostWrite a v s = if s.busy then dropWrite s else acceptCommand v s) ∨
    (target s.cfg a = .inLen ∧ hostWrite a v s = if s.busy then dropWrite s else { s with inLen := v }) ∨
    (∃ i, target s.cfg a = .inEntry i ∧
      hostWrite a v s = if s.busy then dropWrite s else { s with inMem := Memory.store s.inMem i v }) ∨
    (target s.cfg a = .status ∧
      hostWrite a v s =
        { s with done := writeOneToClear s.done (v.getLsbD 1), haz := writeOneToClear s.haz (v.getLsbD 3) }) ∨
    (target s.cfg a = .irqEn ∧ hostWrite a v s = { s with ie := v.getLsbD 0 }) ∨
    ((target s.cfg a ∈ [.id, .errPos, .outLen, .lkRes, .reserved] ∨ ∃ k, target s.cfg a = .outEntry k) ∧
      hostWrite a v s = s) := by
  unfold hostWrite
  cases h : target s.cfg a <;> simp

/-- An IN window target is an entry of the buffer (R40, R42). -/
theorem target_inEntry_lt {c : Config} {a : Addr} {i : Nat} (h : target c a = .inEntry i) : i < c.inDepth := by
  have reg : ∀ w, registerAt w ≠ .inEntry i := by intro w; unfold registerAt; split <;> simp
  unfold target at h
  generalize wordIndex a = w at h
  dsimp only at h
  split_ifs at h with h1 h2 h3
  · exact absurd h (reg w)
  · simp only [Target.inEntry.injEq] at h; omega

/-- An OUT window target is an entry of the buffer (R41, R42). -/
theorem target_outEntry_lt {c : Config} {a : Addr} {k : Nat} (h : target c a = .outEntry k) : k < c.outDepth := by
  have reg : ∀ w, registerAt w ≠ .outEntry k := by intro w; unfold registerAt; split <;> simp
  unfold target at h
  generalize wordIndex a = w at h
  dsimp only at h
  split_ifs at h with h1 h2 h3
  · exact absurd h (reg w)
  · simp only [Target.outEntry.injEq] at h; omega

/-! ### The address map (R39 to R42) -/

@[simp] theorem target_id (c : Config) : target c 0#24 = .id := rfl
@[simp] theorem target_ctrl (c : Config) : target c 4#24 = .ctrl := rfl
@[simp] theorem target_status (c : Config) : target c 8#24 = .status := rfl
@[simp] theorem target_errPos (c : Config) : target c 12#24 = .errPos := rfl
@[simp] theorem target_inLen (c : Config) : target c 16#24 = .inLen := rfl
@[simp] theorem target_outLen (c : Config) : target c 20#24 = .outLen := rfl
@[simp] theorem target_lkRes (c : Config) : target c 24#24 = .lkRes := rfl
@[simp] theorem target_irqEn (c : Config) : target c 28#24 = .irqEn := rfl

/-- Input entry i is the word at 0x40_0000 + 4*i; words at and above IN_DEPTH are reserved (R40, R42). -/
theorem target_inAddr (c : Config) {i : Nat} (h : i < 2 ^ 20) :
    target c (BitVec.ofNat 24 (0x400000 + 4 * i)) = if i < c.inDepth then .inEntry i else .reserved := by
  have hw : wordIndex (BitVec.ofNat 24 (0x400000 + 4 * i)) = 0x100000 + i := by
    unfold wordIndex; rw [BitVec.toNat_ofNat, Nat.mod_eq_of_lt (by omega)]; omega
  unfold target
  rw [hw]
  dsimp only
  rw [if_neg (by omega), if_pos (by omega), show 0x100000 + i - 0x100000 = i by omega]

/-- Output entry k is the word at 0x80_0000 + 4*k; words at and above OUT_DEPTH are reserved (R41, R42). -/
theorem target_outAddr (c : Config) {k : Nat} (h : k < 2 ^ 20) :
    target c (BitVec.ofNat 24 (0x800000 + 4 * k)) = if k < c.outDepth then .outEntry k else .reserved := by
  have hw : wordIndex (BitVec.ofNat 24 (0x800000 + 4 * k)) = 0x200000 + k := by
    unfold wordIndex; rw [BitVec.toNat_ofNat, Nat.mod_eq_of_lt (by omega)]; omega
  unfold target
  rw [hw]
  dsimp only
  rw [if_neg (by omega), if_neg (by omega), if_pos (by omega), show 0x200000 + k - 0x200000 = k by omega]

/-- A read changes the host's registers and, in the BUSY window, the moment; nothing of the device (R50). -/
theorem readTurn_eq (r : Fin 8) (a : Addr) (s : State) :
    readTurn r a s =
      { s with
        hostRegs := s.hostRegs.set r (hostRead a s), draws := if s.busy then s.draws + 1 else s.draws } := by
  unfold readTurn afterRead newMoment
  cases h : s.busy <;> simp_all

/-- Bit 0 of the word a poll reads is BUSY, so `waitTurn` loops exactly as `if (r7 & 1) != 0 goto loop` does (R74). -/
theorem waitTurn_bit (s : State) : (hostRead statusAddr s).getLsbD 0 = s.busy := by
  have h : target s.cfg statusAddr = .status := rfl
  unfold hostRead
  rw [h]
  simp only [statusRead]
  split <;> simp only [statusWord, BitVec.getLsbD_append, BitVec.getLsbD_ofBool] <;> simp

end Sys2Proof.Machine
end

