-- ==== Sys2Proof/Tests/Slice0.lean ====
section
/-! SUPPORT. The model's own tests: the well-formedness smoke test, words of the spec decoded, one step of each command
against the vectors of 95_test_vectors.md, and for every statement with hypotheses a witness that meets them. -/

namespace Sys2Proof.Tests

open Sys2Proof.Machine Sys2Proof.Claims

/-! ### WellFormed refuses an operand that does not fit its field (R73) -/

theorem test_wf_refuses_inW : (Instr.resize 32 1 1).wf = false := by decide
theorem test_wf_refuses_outW : (Instr.resize 1 32 1).wf = false := by decide
theorem test_wf_refuses_lastW : (Instr.resize 1 1 32).wf = false := by decide
theorem test_wf_refuses_tier : (Instr.fwd 16 0).wf = false := by decide
theorem test_wf_refuses_value : (Instr.fwd 0 32768).wf = false := by decide
theorem test_wf_refuses_cp : (Instr.rev 0x200000).wf = false := by decide
/-- "It accepts every value that fits, including the widths and tiers that fail when the command runs" (R73). -/
theorem test_wf_accepts_failing_operands :
    (Instr.resize 0 31 31).wf = true ∧ (Instr.fwd 15 32767).wf = true ∧ (Instr.rev 0x1FFFFF).wf = true := by decide

/-! ### Words written out from the encodings of R59 to R62, and the words 95_test_vectors.md prints -/

theorem test_decode_nop : decodeWord 0x00000000 = .ok .nop := by decide
theorem test_decode_encode : decodeWord 0x00000002 = .ok .encode := by decide
theorem test_decode_decode : decodeWord 0x00000003 = .ok .decode := by decide
theorem test_decode_clear : decodeWord 0x00000006 = .ok .clear := by decide
/-- reserved 000000000, LAST_W 00010, OUT_W 00011, IN_W 00100, reserved 0000, OP 0001 (RS3). -/
theorem test_decode_resize : decodeWord 0b000000000_00010_00011_00100_0000_0001 = .ok (.resize 4 3 2) := by decide
/-- RS1's word. -/
theorem test_decode_resize_vector : decodeWord 0x0021E801 = .ok (.resize 8 15 8) := by decide
/-- reserved 000000000, VALUE 010010000110010, TIER 0000, OP 0100 (LK2: value 9266). -/
theorem test_decode_fwd : decodeWord 0b000000000_010010000110010_0000_0100 = .ok (.fwd 0 9266) := by decide
/-- LK9's word. -/
theorem test_decode_fwd_vector : decodeWord 0x00007F14 = .ok (.fwd 1 127) := by decide
/-- reserved 000, CP 0 0000 1011 0010 0011 0010, reserved 0000, OP 0101 (LK16: 0xB232). -/
theorem test_decode_rev : decodeWord 0b000_000001011001000110010_0000_0101 = .ok (.rev 0xB232) := by decide
/-- LK32's word. -/
theorem test_decode_rev_vector : decodeWord 0x1FFFFF05 = .ok (.rev 0x1FFFFF) := by decide
/-- RS20, RS21, LK15, LK33, LK34 and the ENCODE word with a reserved bit: one reserved bit makes a word illegal (R64). -/
theorem test_reserved_bits_are_illegal :
    decodeWord 0x0021E811 = .error (.reservedBits 1) ∧ decodeWord 0x00A1E801 = .error (.reservedBits 1) ∧
    decodeWord 0x00800004 = .error (.reservedBits 4) ∧ decodeWord 0x20000005 = .error (.reservedBits 5) ∧
    decodeWord 0x00B23215 = .error (.reservedBits 5) ∧ decodeWord 0x00000012 = .error (.reservedBits 2) := by decide
/-- OP 0x7 and 0xF are reserved (R65). -/
theorem test_reserved_opcodes_are_illegal :
    decodeWord 0x00000007 = .error (.reservedOpcode 7) ∧ decodeWord 0x0000000F = .error (.reservedOpcode 15) := by decide
/-- The words of RS1, LK14 and LK22. -/
theorem test_encode_words :
    encode (.resize 8 15 8) = 0x0021E801 ∧ encode (.fwd 2 200) = 0x0000C824 ∧ encode (.rev 0x1BF) = 0x0001BF05 := by
  decide
/-- A command has 32 bits: a number that needs more is no command (R57). -/
theorem test_table_word :
    decodeTableWord 32 0x00243204 = some (.fwd 0 9266) ∧ decodeTableWord 40 0x0100000000 = none := by decide

/-! ### One step of each command (95_test_vectors.md; the words are the vectors' own) -/

/-- A device of the given depths after reset, with the entries and IN_LEN written and the command word accepted. -/
def inFlight (inDepth outDepth len : Nat) (vs : List Word) (w : Word) : State :=
  acceptCommand w
    { State.resetOf { Config.testDevice with inDepth := inDepth, outDepth := outDepth } with
      inMem := Memory.storeAll [] 0 vs, inLen := BitVec.ofNat 32 len }

/-- The TEST_ROM device with depths 64, with these entries loaded and this command word accepted. -/
def flying (vs : List Word) (w : Word) : State := inFlight 64 64 vs.length vs w

/-- A fact about the next state; false if the machine stops. -/
def nextIs (f : State → Bool) : Host.Outcome State Fault Refusal → Bool
  | .next t => f t
  | .fault _ => false
  | .refused _ => false

/-- STATUS and the first results, as the host reads them while BUSY = 0. -/
def outcome (n : Nat) (t : State) : Word × Word × List (Option Word) :=
  (hostRead statusAddr t, hostRead outLenAddr t, (List.range n).map (Memory.lookup t.outMem))

/-- RS3: last_w < in_w, the stream 0101 0110 11, a partial last group. -/
theorem test_resize_rs3 :
    nextIs (fun t => outcome 4 t == (2, 4, [some 0x30002, some 0x30005, some 0x30005, some 0x10001]))
      (step (flying [5, 6, 7] 0x00086401)) = true := by decide +kernel
/-- RS18: BadWidth is reported before InputLength. -/
theorem test_resize_rs18 :
    nextIs (fun t => outcome 0 t == (0x806, 0, []) && t.errPos == 0xFFFFFFFF)
      (step (inFlight 64 64 65 [] 0x0021E001)) = true := by decide +kernel
/-- EN1: "Hello". -/
theorem test_encode_en1 :
    nextIs (fun t => outcome 3 t == (2, 3, [some 0xB232, some 0x691B, some 0x9BFF]))
      (step (flying [0x48, 0x65, 0x6C, 0x6C, 0x6F] 2)) = true := by decide +kernel
/-- EN13: final width 1, tier 1. -/
theorem test_encode_en13 :
    nextIs (fun t => outcome 2 t == (2, 2, [some 0x971A, some 0x01BF])) (step (flying [0x12, 0x34] 2)) = true := by
  decide +kernel
/-- DE5: a tier-1 last character, last_w = 7. -/
theorem test_decode_de5 :
    nextIs (fun t => outcome 2 t == (2, 2, [some 0xFF, some 0xFF])) (step (flying [0x8DFF, 0x028F] 3)) = true := by
  decide +kernel
/-- DE21: MisplacedPadding at 1, before InvalidCharacter at 2. -/
theorem test_decode_de21 :
    nextIs (fun t => outcome 0 t == (0x506, 0, []) && t.errPos == 1) (step (flying [0x8E00, 0x01BF, 0x41] 3)) = true := by
  decide +kernel
/-- LK4: the first value of block 512. -/
theorem test_fwd_lk4 : nextIs (fun t => t.lkRes == 0x80004E00) (step (flying [] 0x00400004)) = true := by decide +kernel
/-- LK14: the tier is checked before the value. -/
theorem test_fwd_lk14 :
    nextIs (fun t => t.lkRes == 0 && outcome 0 t == (0x206, 0, [])) (step (flying [] 0x0000C824)) = true := by
  decide +kernel
/-- LK23: tier 1, value 64. -/
theorem test_rev_lk23 : nextIs (fun t => t.lkRes == 0x80010040) (step (flying [] 0x00025005)) = true := by decide +kernel
/-- LK29: a surrogate. -/
theorem test_rev_lk29 : nextIs (fun t => outcome 0 t == (0x606, 0, [])) (step (flying [] 0x00D80005)) = true := by
  decide +kernel
/-- R79: NOP keeps an earlier error report. -/
theorem test_nop_keeps_the_report :
    nextIs (fun t => hostRead statusAddr t == 0x70E)
      (step { flying [] 0 with err := true, errCode := 7, haz := true }) = true := by decide +kernel
/-- R80: CLEAR zeroes the report, HAZ, OUT_LEN and LKRES, and keeps IN_LEN. -/
theorem test_clear :
    nextIs (fun t => hostRead statusAddr t == 2 && t.outLen == 0 && t.lkRes == 0 && t.inLen == 2)
      (step { flying [1, 2] 6 with err := true, errCode := 7, haz := true, outLen := 5, lkRes := 9 }) = true := by
  decide +kernel
/-- RS20: an illegal word leaves OUT_LEN as it was (R81). -/
theorem test_illegal_rs20 :
    nextIs (fun t => hostRead statusAddr t == 0x706 && t.outLen == 3)
      (step { flying [4] 0x0021E811 with outLen := 3 }) = true := by decide +kernel
/-- The host's word runs as the first command after reset (LK2). -/
theorem test_withFetchWord :
    nextIs (fun t => t.lkRes == 0x8000B232) (step (State.reset.withFetchWord 32 0x00243204)) = true := by decide +kernel
/-- R144: a write of IN_LEN in the BUSY window is dropped and sets HAZ; STATUS then reads BUSY and HAZ, whatever the
unspecified bits are. -/
theorem test_busy_write_is_dropped :
    hostWrite inLenAddr 7 (flying [1] 2) = { flying [1] 2 with haz := true } := by decide +kernel

/-- R74, R75: the write turn of `ISSUE CLEAR` accepts the word 0x0000_0006. -/
theorem test_write_turn_issues :
    nextIs (fun t => t.cmdl == 6 && t.busy && !t.done && t.script == [.wait])
      (step { State.reset with done := true, script := runCommand .clear }) = true := by decide +kernel
/-- R74: COPYOUT's second turn writes r6 to the input entry. -/
theorem test_write_turn_from_register :
    nextIs (fun t => inEntry t 0 == 0xB232)
      (step
        { State.reset with
          hostRegs := State.reset.hostRegs.set 6 0xB232, script := [.write (inAddr 0) (.reg 6)] }) = true := by
  decide +kernel
/-- R144: a write turn of CTRL in the BUSY window is dropped and sets HAZ. -/
theorem test_write_turn_while_busy :
    nextIs (fun t => t.cmdl == 2 && t.busy && t.haz) (step { flying [1] 2 with script := issue .clear }) = true := by
  decide +kernel
/-- P3: `if (r0 & 4) != 0 goto fail` is taken after DECODE's error, STATUS = 0x0000_0506, and not after a success. -/
theorem test_skip_turn_p3 :
    nextIs (fun t => t.script == [.read 1 errPosAddr])
      (step
        { State.reset with
          hostRegs := State.reset.hostRegs.set 0 0x506, script := [.skipIfSet 0 4 1, .wait, .read 1 errPosAddr] }) =
      true ∧
    nextIs (fun t => t.script == [.wait, .read 1 errPosAddr])
      (step
        { State.reset with
          hostRegs := State.reset.hostRegs.set 0 2, script := [.skipIfSet 0 4 1, .wait, .read 1 errPosAddr] }) =
      true := by decide +kernel

/-! ### Witnesses: the hypotheses of each statement hold somewhere -/

/-- WF_ROM does not read the depths (R94). -/
theorem romWf_depths (c : Config) (i o : Nat) : romWf { c with inDepth := i, outDepth := o } = romWf c := rfl

/-- The reverse lookup does not read the depths (R97). -/
theorem rev_depths (c : Config) (i o cp : Nat) : rev { c with inDepth := i, outDepth := o } cp = rev c cp := rfl

/-- Any legal depths make a legal device of TEST_ROM. -/
theorem legal_depths {i o : Nat} (hi : 1 ≤ i ∧ i ≤ 2 ^ 20) (ho : 1 ≤ o ∧ o ≤ 2 ^ 20) :
    configLegal { Config.testDevice with inDepth := i, outDepth := o } = true :=
  (configLegal_iff _).2 ⟨(romWf_depths Config.testDevice i o).trans (romWf_of_legal testDevice_legal), hi, ho⟩

/-- Both ends of R7's depths. -/
theorem witness_depths :
    configLegal { Config.testDevice with inDepth := 1, outDepth := 2 ^ 20 } = true :=
  legal_depths (by decide) (by decide)

theorem legal_inFlight {i o : Nat} (len : Nat) (vs : List Word) (w : Word) (hi : 1 ≤ i ∧ i ≤ 2 ^ 20)
    (ho : 1 ≤ o ∧ o ≤ 2 ^ 20) : configLegal (inFlight i o len vs w).cfg = true := legal_depths hi ho

theorem witness_EncodeThenDecode :
    Instr.nop.wf = true ∧ (Instr.resize 31 31 31).wf = true ∧ Instr.encode.wf = true ∧ Instr.decode.wf = true ∧
    (Instr.fwd 15 32767).wf = true ∧ (Instr.rev 0x1FFFFF).wf = true ∧ Instr.clear.wf = true := by decide

theorem witness_DecodeThenEncode :
    decodeWord 0x007FFF01 = .ok (.resize 31 31 31) ∧ decodeWord 0x007FFFF4 = .ok (.fwd 15 32767) := by decide

theorem witness_OpcodeMapSelectsTheCommand :
    (∃ row ∈ opcodeMap 0x007FFF01, 0x007FFF01 &&& row.1 = row.2.1) ∧
    (∀ row ∈ opcodeMap (0x00000007 : Word).toNat, (0x00000007 : Word).toNat &&& row.1 ≠ row.2.1) := by decide

theorem witness_CtrlWriteIsAcceptedOrDropped : (flying [] 2).busy = true ∧ State.reset.busy = false := by decide +kernel

theorem witness_StepRunsTheDecodedCommand :
    (let s := flying [1] 2; s.busy = true ∧ decodeWord s.cmdl = .ok .encode ∧ s.script = []) ∧
    (let s := { flying [1] 2 with script := [.engine, .wait] };
      s.busy = true ∧ decodeWord s.cmdl = .ok .encode ∧ s.script = .engine :: [.wait]) ∧
    0x1FFFFF05 < 2 ^ 32 ∧ decodeTableWord 32 0x1FFFFF05 = some (.rev 0x1FFFFF) := by decide +kernel

theorem witness_IdleEngineDoesNothing :
    (State.reset.busy = false ∧ State.reset.script = []) ∧
    (let s := { State.reset with script := [.engine] }; s.busy = false ∧ s.script = .engine :: []) := by
  exact ⟨⟨rfl, rfl⟩, rfl, rfl⟩

theorem witness_IllegalWordCompletesWithAnError :
    State.reset.busy = false ∧
    (∀ row ∈ opcodeMap (0x00000010 : Word).toNat, (0x00000010 : Word).toNat &&& row.1 ≠ row.2.1) ∧
    (∀ row ∈ opcodeMap (0xFFFFFFFF : Word).toNat, (0xFFFFFFFF : Word).toNat &&& row.1 ≠ row.2.1) :=
  ⟨rfl, by decide, by decide⟩

/-- A word with OP = 0x0 that is not NOP (R65). -/
theorem witness_NopWritesBusyAndDoneOnly : (0x00000010 : Word).toNat % 16 = 0 ∧ (0x00000010 : Word) ≠ 0 := by decide

/-- Both ends of the legal widths; and a group to speak of. -/
theorem witness_RegroupClosedForm :
    (1 ≤ 1 ∧ 1 ≤ 16 ∧ 1 ≤ 1 ∧ 0 < ceilDiv (totalBits [5].length 1 1) 1) ∧
    (1 ≤ 16 ∧ 16 ≤ 16 ∧ 1 ≤ 16 ∧ 16 ≤ 16 ∧ 2 < ceilDiv (totalBits [5, 6, 7].length 16 16) 16) := by decide

theorem witness_RegroupReadsOnlyValidBits :
    (1 ≤ 4 ∧ 4 ≤ 16 ∧ 1 ≤ 3 ∧ 3 ≤ 16 ∧ 1 ≤ 2 ∧ 2 ≤ 4) ∧ [5, 3].length = [0x15, 0x77].length ∧
    ∀ i, i < [5, 3].length →
      [5, 3].getD i 0 % 2 ^ elementWidth [5, 3].length 4 2 i =
        [0x15, 0x77].getD i 0 % 2 ^ elementWidth [5, 3].length 4 2 i := by decide

theorem witness_RegroupGroupSizes :
    (1 ≤ 4 ∧ 4 ≤ 16 ∧ 1 ≤ 3 ∧ 3 ≤ 16 ∧ 1 ≤ 2 ∧ 2 ≤ 4) ∧
    (regroup [5, 6, 7] 4 3 2)[2]? = some ⟨5, 3⟩ ∧ 2 + 1 < (regroup [5, 6, 7] 4 3 2).length ∧
    (regroup [5, 6, 7] 4 3 2)[3]? = some ⟨1, 1⟩ := by decide

theorem witness_AccumulatorNeverWraps :
    (1 ≤ 1 ∧ 1 ≤ 16 ∧ ∀ b ∈ [1, 1, 1], b < 2) ∧ (1 ≤ 16 ∧ 16 ≤ 16 ∧ ∀ b ∈ List.replicate 15 1, b < 2) ∧
    17 ≤ 17 := by decide

/-- RS1's word, and the word with every operand bit set. -/
theorem witness_ResizeCommand_word :
    (0x0021E801 : Word).toNat &&& 0xFF8000FF = 0x00000001 ∧ (0x007FFF01 : Word).toNat &&& 0xFF8000FF = 0x00000001 := by
  decide

/-- One state for each clause: the widths, the input length, the capacity, and a result that just fits. -/
theorem witness_ResizeCommand :
    configLegal State.reset.cfg = true ∧ ¬ (1 ≤ 8 ∧ 8 ≤ 16 ∧ 1 ≤ 17 ∧ 17 ≤ 16 ∧ 1 ≤ 8 ∧ 8 ≤ 8) ∧
    (let s := inFlight 64 64 65 [] 0;
      configLegal s.cfg = true ∧ s.cfg.inDepth < s.inLen.toNat) ∧
    (let s := inFlight 64 15 1 [0xFFFF] 0;
      configLegal s.cfg = true ∧ s.inLen.toNat ≤ s.cfg.inDepth ∧
        s.cfg.outDepth < ceilDiv (totalBits s.inLen.toNat 16 16) 1) ∧
    (let s := inFlight 64 16 1 [0xFFFF] 0;
      configLegal s.cfg = true ∧ s.inLen.toNat ≤ s.cfg.inDepth ∧
        s.cfg.outDepth = ceilDiv (totalBits s.inLen.toNat 16 16) 1) := by
  refine ⟨testDevice_legal, by decide, ⟨?_, by decide⟩, ⟨?_, by decide⟩, ?_, by decide⟩ <;>
    exact legal_inFlight _ _ _ (by decide) (by decide)

theorem witness_ResizeOfEmptyInput :
    State.reset.inLen = 0 ∧ 1 ≤ 16 ∧ 16 ≤ 16 ∧ 1 ≤ 1 ∧ 1 ≤ 16 ∧ 1 ≤ 16 ∧ 16 ≤ 16 := ⟨rfl, by decide⟩

theorem witness_WfRomIsItsFourConditions : romWf Config.testDevice = true := romWf_of_legal testDevice_legal

theorem witness_OnlyLegalParametersPowerUp :
    (let c := { Config.testDevice with inDepth := 1, outDepth := 2 ^ 20 };
      romWf c = true ∧ 1 ≤ c.inDepth ∧ c.inDepth ≤ 2 ^ 20 ∧ 1 ≤ c.outDepth ∧ c.outDepth ≤ 2 ^ 20) ∧
    (let c := { Config.testDevice with inDepth := 0 };
      ¬ (romWf c = true ∧ 1 ≤ c.inDepth ∧ c.inDepth ≤ 2 ^ 20 ∧ 1 ≤ c.outDepth ∧ c.outDepth ≤ 2 ^ 20)) :=
  ⟨⟨(romWf_depths Config.testDevice 1 (2 ^ 20)).trans (romWf_of_legal testDevice_legal), by decide⟩,
    fun h => absurd h.2.1 (by decide)⟩

theorem witness_FwdOnEveryDomain :
    romWf Config.testDevice = true ∧ 2 ≤ 2 ∧ (1 < 2 ∧ 2 ^ (15 - 8 * 1) ≤ 128) ∧
    (0 < 2 ∧ 32767 < 2 ^ (15 - 8 * 0)) ∧ (1 < 2 ∧ 127 < 2 ^ (15 - 8 * 1)) :=
  ⟨romWf_of_legal testDevice_legal, by decide⟩

theorem witness_FwdAndRevAreInverse :
    romWf Config.testDevice = true ∧ (1 < 2 ∧ 127 < 2 ^ (15 - 8 * 1)) ∧
    rev Config.testDevice 0x8DFF = some (0, 32767) :=
  ⟨romWf_of_legal testDevice_legal, by decide, by decide +kernel⟩

theorem witness_TiersShareNoCodepoint :
    romWf Config.testDevice = true ∧ fwd Config.testDevice 0 32767 = some 0x8DFF ∧ 0xFFFF < 0x10000 :=
  ⟨romWf_of_legal testDevice_legal, by decide +kernel, by decide⟩

/-- The words of FWD and REV with every operand bit set. -/
theorem witness_lookup_words :
    (0x007FFFF4 : Word).toNat &&& 0xFF80000F = 0x00000004 ∧ (0x1FFFFF05 : Word).toNat &&& 0xE00000FF = 0x00000005 := by
  decide

/-- One operand pair for each clause, at the boundaries of the tier and of the domains. -/
theorem witness_FwdCommand :
    configLegal State.reset.cfg = true ∧ (2 < 16 ∧ 15 < 16 ∧ 2 ≤ 2) ∧ (128 < 32768 ∧ 1 = 1 ∧ 128 ≤ 128) ∧
    (127 < 32768 ∧ ¬ 128 ≤ 127) ∧ (0 < 16 ∧ 32767 < 32768 ∧ ¬ 2 ≤ 0) := ⟨testDevice_legal, by decide⟩

/-- One codepoint for each clause, at the boundaries of the width, the surrogates and the blocks. -/
theorem witness_RevCommand :
    configLegal State.reset.cfg = true ∧ (0x1FFFFF < 2 ^ 21 ∧ 0xFFFF < 0x10000) ∧
    (∀ b ∈ State.reset.cfg.blockStart0 ++ State.reset.cfg.blockStart1,
      ¬ (b ≤ 0xFFFF ∧ 0xFFFF < b + State.reset.cfg.blockSize)) ∧
    (0xD800 ≤ 0xD800 ∧ 0xDFFF ≤ 0xDFFF) ∧
    (State.reset.cfg.blockStart0[1023]? = some 0x8DE0 ∧ 0x8DE0 ≤ 0x8DFF ∧ 0x8DFF < 0x8DE0 + State.reset.cfg.blockSize) ∧
    (State.reset.cfg.blockStart1[3]? = some 0x270 ∧ 0x270 ≤ 0x270 ∧ 0x270 < 0x270 + State.reset.cfg.blockSize) :=
  ⟨testDevice_legal, by decide, by decide +kernel, by decide, by decide +kernel, by decide +kernel⟩

theorem witness_PaddingAndTierOfEveryWidth :
    (1 ≤ 15 ∧ 15 ≤ 15 ∧ 32767 < 2 ^ 15) ∧ (1 ≤ 14 ∧ 14 ≤ 15 ∧ 16383 < 2 ^ 14) ∧ (8 ≤ 8 ∧ 255 < 2 ^ 8) ∧
    (1 ≤ 7 ∧ ¬ 8 ≤ 7 ∧ 127 < 2 ^ 7) ∧ (1 ≤ 1 ∧ 1 < 2 ^ 1) := by decide

theorem witness_EncodeCommand :
    (let s := inFlight 64 64 65 [] 2; configLegal s.cfg = true ∧ s.cfg.inDepth < s.inLen.toNat) ∧
    (let s := inFlight 64 2 5 [0x48, 0x65, 0x6C, 0x6C, 0x6F] 2;
      configLegal s.cfg = true ∧ s.inLen.toNat ≤ s.cfg.inDepth ∧ s.cfg.outDepth < codepointCount s.inLen.toNat) ∧
    (let s := inFlight 5 3 5 [0x48, 0x65, 0x6C, 0x6C, 0x6F] 2;
      configLegal s.cfg = true ∧ s.inLen.toNat ≤ s.cfg.inDepth ∧ s.cfg.outDepth = codepointCount s.inLen.toNat) := by
  refine ⟨⟨?_, by decide⟩, ⟨?_, by decide⟩, ?_, by decide⟩ <;> exact legal_inFlight _ _ _ (by decide) (by decide)

/-- The lengths 2 and 14 (R108). -/
theorem witness_EncodeFinalTier_lengths :
    (2 % 15 ≠ 0 ∧ 2 % 15 % 2 = 0) ∧ (14 % 15 ≠ 0 ∧ 14 % 15 % 2 = 0) := by decide

/-- L = 1, whose final codepoint is of tier 0, and L = 14, whose final codepoint is of tier 1. -/
theorem witness_EncodeFinalTier :
    (let s := inFlight 1 1 1 [0] 2;
      configLegal s.cfg = true ∧ 1 ≤ s.inLen.toNat ∧ s.inLen.toNat ≤ s.cfg.inDepth ∧
        codepointCount s.inLen.toNat ≤ s.cfg.outDepth) ∧
    (let s := inFlight 14 8 14 (List.replicate 14 0) 2;
      configLegal s.cfg = true ∧ 1 ≤ s.inLen.toNat ∧ s.inLen.toNat ≤ s.cfg.inDepth ∧
        codepointCount s.inLen.toNat ≤ s.cfg.outDepth ∧ s.inLen.toNat % 15 % 2 = 0) := by
  refine ⟨⟨?_, by decide⟩, ?_, by decide⟩ <;> exact legal_inFlight _ _ _ (by decide) (by decide)

/-- DE5's text, whose last character is of tier 1, in a device where its two bytes just fit and in one where they do
not. -/
theorem witness_DecodeOfAText :
    (∀ o ∈ [1, 2], configLegal (inFlight 2 o 2 [0x8DFF, 0x028F] 3).cfg = true) ∧
    ∀ o ∈ [1, 2],
      let s := inFlight 2 o 2 [0x8DFF, 0x028F] 3
      let tier := fun p => if p = 1 then 1 else 0
      let value := fun p => if p = 1 then 127 else 32767
      s.inLen.toNat ≤ s.cfg.inDepth ∧
      (∀ p, p < s.inLen.toNat → rev s.cfg (inEntry s p).toNat = some (tier p, value p)) ∧
      (∀ p, p + 1 < s.inLen.toNat → tier p = 0) ∧ textBits tier s.inLen.toNat / 8 = 2 := by
  refine ⟨fun o ho => legal_inFlight _ _ _ (by decide) (by revert o; decide), fun o ho => ?_⟩
  have h1 : rev Config.testDevice 0x8DFF = some (0, 32767) := by decide +kernel
  have h2 : rev Config.testDevice 0x028F = some (1, 127) := by decide +kernel
  have hL : (inFlight 2 o 2 [0x8DFF, 0x028F] 3).inLen.toNat = 2 := rfl
  refine ⟨by rw [hL]; exact le_refl 2, fun p hp => ?_, fun p hp => ?_, by rw [hL]; decide⟩
  · rw [hL] at hp
    interval_cases p
    · exact (rev_depths Config.testDevice 2 o 0x8DFF).trans h1
    · exact (rev_depths Config.testDevice 2 o 0x028F).trans h2
  · rw [hL] at hp
    have h0 : p = 0 := by omega
    subst h0
    rfl

/-- A text for each clause: too long; then, at position 1 after a tier-0 character, a wide value, a codepoint in no tier,
a surrogate at each end of the range, and a tier-1 character that is not the last. -/
theorem witness_DecodeFirstError :
    (let s := inFlight 64 64 65 [] 3; configLegal s.cfg = true ∧ s.cfg.inDepth < s.inLen.toNat) ∧
    (∀ x ∈ [(0x10000 : Word), 0xFFFFFFFF, 0x41, 0xD800, 0xDFFF, 0x01BF],
      let s := flying [0x8E00, x, 0x8E00] 3
      configLegal s.cfg = true ∧ s.inLen.toNat ≤ s.cfg.inDepth ∧ 1 + 1 < s.inLen.toNat ∧ inEntry s 1 = x ∧
        ∀ q, q < 1 → ∃ v, rev s.cfg (inEntry s q).toNat = some (0, v)) ∧
    rev Config.testDevice 0x41 = none ∧ rev Config.testDevice 0x01BF = some (1, 63) := by
  refine ⟨⟨legal_inFlight _ _ _ (by decide) (by decide), by decide⟩, fun x _ => ?_, by decide +kernel, by decide +kernel⟩
  refine ⟨legal_inFlight _ _ _ (by decide) (by decide), by show 3 ≤ 64; decide, by show 2 < 3; decide, rfl, ?_⟩
  intro q hq
  interval_cases q
  exact ⟨0, by show rev Config.testDevice 0x8E00 = _; decide +kernel⟩

/-- "Hello", and the state that holds its codepoints (EN1, DE1), in a device where both just fit. -/
theorem witness_DecodeOfEncodeIsIdentity :
    let s := inFlight 5 5 5 [0x48, 0x65, 0x6C, 0x6C, 0x6F] 2
    let u := inFlight 5 5 3 [0xB232, 0x691B, 0x9BFF] 3
    configLegal s.cfg = true ∧ u.cfg = s.cfg ∧
    s.inLen.toNat ≤ s.cfg.inDepth ∧ s.inLen.toNat ≤ s.cfg.outDepth ∧
    codepointCount s.inLen.toNat ≤ s.cfg.inDepth ∧ codepointCount s.inLen.toNat ≤ s.cfg.outDepth ∧
    nextIs (fun t => u.inLen == t.outLen &&
      (List.range t.outLen.toNat).all fun k => Memory.lookup t.outMem k == some (inEntry u k)) (exec .encode s) = true :=
  ⟨legal_inFlight _ _ _ (by decide) (by decide), rfl, by decide, by decide, by decide, by decide, by decide +kernel⟩

/-- No hypothesis but on which command it is. -/
theorem witness_CommandFrame :
    Instr.nop ≠ .clear ∧ isBufferCommand .clear = false ∧ isBufferCommand .nop = false ∧
    isLookupCommand .decode = false ∧ Instr.decode ≠ .clear := by decide

theorem witness_ErrorLeavesNoPartialResult :
    Instr.resize 0 1 1 ≠ .nop ∧ isBufferCommand (.resize 0 1 1) = true ∧
    (∃ t, exec (.resize 0 1 1) State.reset = .next t ∧ t.err = true) ∧
    isLookupCommand (.fwd 2 0) = true ∧ ∃ t, exec (.fwd 2 0) State.reset = .next t ∧ t.err = true :=
  ⟨by decide, rfl, ⟨_, rfl, rfl⟩, rfl, _, rfl, rfl⟩

/-- A command with no error, one with NOPOS, REV with a per-character error, and DECODE with one at an element. -/
theorem witness_ErrorCodesOfEachCommand :
    configLegal State.reset.cfg = true ∧ configLegal (flying [0x10000] 3).cfg = true ∧
    (∃ t, exec .clear State.reset = .next t ∧ t.errCode = 0) ∧
    (∃ t, exec (.resize 0 1 1) State.reset = .next t ∧ t.errCode = 0x8) ∧
    (∃ t, exec (.rev 0x10000) State.reset = .next t ∧ t.errCode = 0x4) ∧
    ∃ t, exec .decode (flying [0x10000] 3) = .next t ∧ t.errCode = 0x4 :=
  ⟨testDevice_legal, testDevice_legal, ⟨_, rfl, rfl⟩, ⟨_, rfl, rfl⟩, ⟨_, rfl, rfl⟩, _, rfl, by decide +kernel⟩

/-- Two states that agree on the input and differ in everything else. -/
theorem witness_ResultsDependOnInputsAlone :
    let s := inFlight 64 64 1 [0x48] 2
    let t := { inFlight 64 64 1 [0x48, 0x99] 2 with haz := true, outMem := [(3, 1)], outLen := 4, lkRes := 9, draws := 5 }
    isBufferCommand .encode = true ∧ isLookupCommand (.rev 0x180) = true ∧ s.cfg = t.cfg ∧ s.inLen = t.inLen ∧
    (∀ k, k < s.inLen.toNat → inEntry s k = inEntry t k) ∧
    (∃ s', exec .encode s = .next s') ∧ (∃ t', exec .encode t = .next t') ∧
    (∃ s', exec (.rev 0x180) s = .next s') ∧ ∃ t', exec (.rev 0x180) t = .next t' := by
  refine ⟨rfl, rfl, rfl, rfl, fun k hk => ?_, ⟨_, rfl⟩, ⟨_, rfl⟩, ⟨_, rfl⟩, _, rfl⟩
  have hk' : k < 1 := hk
  interval_cases k
  rfl

/-- Both ends of each reserved range. -/
theorem witness_ReservedWordsReadZero :
    ∀ n ∈ [0x000020, 0x3FFFFF, 0x400100, 0x7FFFFF, 0x800100, 0xBFFFFF, 0xC00000, 0xFFFFFF],
      let a : Addr := BitVec.ofNat 24 n;
      (0x000020 ≤ a.toNat ∧ a.toNat ≤ 0x3FFFFF) ∨
      (0x400000 + 4 * State.reset.cfg.inDepth ≤ a.toNat ∧ a.toNat ≤ 0x7FFFFF) ∨
      (0x800000 + 4 * State.reset.cfg.outDepth ≤ a.toNat ∧ a.toNat ≤ 0xBFFFFF) ∨ 0xC00000 ≤ a.toNat := by
  have hi : State.reset.cfg.inDepth = 64 := rfl
  have ho : State.reset.cfg.outDepth = 64 := rfl
  rw [hi, ho]
  decide

theorem witness_ReadOnlyWordsIgnoreWrites :
    ∀ n ∈ [0x000000, 0x000003, 0x00000C, 0x000014, 0x00001B, 0x800000, 0xBFFFFF],
      let a : Addr := BitVec.ofNat 24 n;
      a.toNat / 4 ∈ [0, 3, 5, 6] ∨ (0x800000 ≤ a.toNat ∧ a.toNat ≤ 0xBFFFFF) := by decide

/-- Every bit of STATUS but the two W1C bits; and the word of IRQEN. -/
theorem witness_ReadOnlyWordsIgnoreWrites_bits :
    (0x000008 : Addr).toNat / 4 = 2 ∧ (0xFFFFFFF5 : Word).getLsbD 1 = false ∧ (0xFFFFFFF5 : Word).getLsbD 3 = false ∧
    (0x00001F : Addr).toNat / 4 = 7 := by decide

theorem witness_WritesWhileBusy : (flying [1] 2).busy = true := rfl

theorem witness_RegisterWritesWhileIdle : State.reset.busy = false := rfl

theorem witness_RegisterReadsWhileIdle : State.reset.busy = false := rfl

/-- A device that has just accepted a command and holds one result of an earlier one. -/
def busyDevice : State := { flying [] 2 with outLen := 1, outMem := [(0, 5)] }

/-- The same device before the acceptance, with BUSY = 0. -/
def idleDevice : State := { busyDevice with busy := false, done := true }

theorem invariant_busyDevice : Invariant busyDevice where
  legal := testDevice_legal
  inCanonical := rfl
  outCanonical := rfl
  outBounded := by show 1 ≤ 64; decide
  outHeld := fun k hk => by
    have hk' : k < 1 := hk
    interval_cases k
    rfl
  busyNotDone := fun _ => rfl
  errHasCode := by decide +kernel
  codeNamed := Nat.zero_le _
  posOfError := fun _ => rfl
  hitOrZero := .inl rfl

theorem invariant_idleDevice : Invariant idleDevice where
  legal := testDevice_legal
  inCanonical := rfl
  outCanonical := rfl
  outBounded := invariant_busyDevice.outBounded
  outHeld := invariant_busyDevice.outHeld
  busyNotDone := fun h => by cases h
  errHasCode := by decide +kernel
  codeNamed := Nat.zero_le _
  posOfError := fun _ => rfl
  hitOrZero := .inl rfl

theorem witness_DefinedReadsWhileBusy : Invariant busyDevice ∧ busyDevice.busy = true ∧ 63 < busyDevice.cfg.inDepth :=
  ⟨invariant_busyDevice, rfl, by show 63 < 64; decide⟩

theorem witness_ReadsHaveNoSideEffect :
    ({ State.reset with script := [.read 7 0x000008] } : State).script = .read 7 0x000008 :: [] ∧
    State.reset.busy = false := ⟨rfl, rfl⟩

theorem witness_InWindowReadsBack :
    configLegal State.reset.cfg = true ∧ State.reset.busy = false ∧
    (63 < 2 ^ 20 ∧ 63 < State.reset.cfg.inDepth) ∧ (2 ^ 20 - 1 < 2 ^ 20 ∧ ¬ 64 < State.reset.cfg.inDepth) :=
  ⟨testDevice_legal, rfl, by decide, by decide⟩

theorem witness_OutWindowReadsResults :
    (Invariant idleDevice ∧ 0 < idleDevice.cfg.outDepth ∧ idleDevice.busy = false ∧ 0 < idleDevice.outLen.toNat) ∧
    (idleDevice.outLen.toNat ≤ 1 ∧ 63 < idleDevice.cfg.outDepth ∧ idleDevice.cfg.outDepth ≤ 64 ∧ 2 ^ 20 - 1 < 2 ^ 20) ∧
    Invariant busyDevice ∧ busyDevice.busy = true :=
  ⟨⟨invariant_idleDevice, by decide, rfl, by decide⟩, by decide, invariant_busyDevice, rfl⟩

theorem witness_IrqLineLevel :
    State.reset.busy = false ∧ (2 : Word).getLsbD 1 = true ∧ (1 : Word).getLsbD 0 = true ∧ idleDevice.done = true :=
  ⟨rfl, rfl, rfl, rfl⟩

theorem witness_WaitPollsUntilIdle :
    (let s := { State.reset with script := [.wait] }; s.script = .wait :: [] ∧ s.busy = false) ∧
    (let s := { busyDevice with script := [.wait] }; s.script = .wait :: [] ∧ s.busy = true) :=
  ⟨⟨rfl, rfl⟩, rfl, rfl⟩

theorem witness_ResetAbandonsTheCommand :
    let s := { busyDevice with script := [.reset, .wait] }; s.script = .reset :: [.wait] ∧ s.busy = true := ⟨rfl, rfl⟩

theorem witness_InvariantHoldsAtReset :
    configLegal { Config.testDevice with inDepth := 1, outDepth := 2 ^ 20 } = true := witness_depths

/-- A completion step and a step with nothing to do. -/
theorem witness_StepKeepsTheInvariant :
    (Invariant busyDevice ∧ ∃ t, step busyDevice = .next t) ∧ Invariant idleDevice ∧ step idleDevice = .next idleDevice :=
  ⟨⟨invariant_busyDevice, _, rfl⟩, invariant_idleDevice, rfl⟩

theorem witness_StepKeepsTheConfiguration : ∃ t, step busyDevice = .next t := ⟨_, rfl⟩

/-- A dropped write of IN_LEN in the BUSY window. -/
theorem witness_InputsAreFrozenWhileBusy :
    let s := { busyDevice with script := [.write inLenAddr (.imm 9)] }
    s.busy = true ∧ ∃ t, step s = .next t ∧ t.busy = true := ⟨rfl, _, rfl, rfl⟩

theorem witness_OnlyCompletionOrResetPublishes :
    let s := { busyDevice with script := [.write ctrlAddr (.imm 6), .engine] }
    s.script = .write ctrlAddr (.imm 6) :: [.engine] ∧ Turn.write ctrlAddr (.imm 6) ≠ .engine ∧
    Turn.write ctrlAddr (.imm 6) ≠ .reset ∧ ∃ t, step s = .next t := ⟨rfl, by decide, by decide, _, rfl⟩

/-- A write from an operand, one from a register, and a CTRL write while idle. -/
theorem witness_WriteTurnIsTheHostWrite :
    ({ busyDevice with script := [.write 0x000010 (.imm 9)] } : State).script = .write 0x000010 (.imm 9) :: [] ∧
    ({ idleDevice with script := [.write 0xFFFFFF (.reg 7)] } : State).script = .write 0xFFFFFF (.reg 7) :: [] ∧
    (let s := { idleDevice with script := [.write 0x000004 (.imm 6), .wait] };
      s.script = .write 0x000004 (.imm 6) :: [.wait] ∧ s.busy = false) := ⟨rfl, rfl, rfl, rfl⟩

/-- A branch that is taken and one that is not. -/
theorem witness_SkipTurnIsAForwardBranch :
    (let s := { State.reset with hostRegs := State.reset.hostRegs.set 7 0x80000000,
                                 script := [.skipIfSet 7 0x80000000 1, .wait] };
      s.script = .skipIfSet 7 0x80000000 1 :: [.wait] ∧ s.hostRegs[(7 : Fin 8)] &&& 0x80000000 ≠ 0) ∧
    (let s := { State.reset with script := [.skipIfSet 0 0xFFFFFFFF 0] };
      s.script = .skipIfSet 0 0xFFFFFFFF 0 :: [] ∧ s.hostRegs[(0 : Fin 8)] &&& 0xFFFFFFFF = 0) := by decide +kernel

theorem witness_RunIssuesTheCommandAndWaits :
    let s := { State.reset with script := runCommand (.rev 0x1FFFFF) ++ [Turn.reset] };
    (Instr.rev 0x1FFFFF).wf = true ∧ s.busy = false ∧ s.script = runCommand (.rev 0x1FFFFF) ++ [Turn.reset] :=
  ⟨by decide, rfl, rfl⟩

/-- Nothing to load, and exactly as many entries as the device has. -/
theorem witness_LoadInFillsTheInputBuffer :
    (let s := { State.reset with script := loadIn [] ++ [Turn.wait] };
      configLegal s.cfg = true ∧ s.busy = false ∧ ([] : List Word).length ≤ s.cfg.inDepth ∧
        s.script = loadIn [] ++ [Turn.wait]) ∧
    (let s := { inFlight 2 1 0 [] 0 with busy := false, script := loadIn [0x8DFF, 0x028F] };
      configLegal s.cfg = true ∧ s.busy = false ∧ [(0x8DFF : Word), 0x028F].length ≤ s.cfg.inDepth ∧
        s.script = loadIn [0x8DFF, 0x028F] ++ []) :=
  ⟨⟨testDevice_legal, rfl, Nat.zero_le _, rfl⟩, legal_inFlight 0 [] 0 (by decide) (by decide), rfl, Nat.le_refl 2, rfl⟩

/-- With no turn to come, and with a poll and a skip before the engine's turn. -/
theorem witness_AcceptedCommandCompletes :
    (busyDevice.busy = true ∧ .reset ∉ busyDevice.script) ∧
    (let s := { busyDevice with script := [.wait, .skipIfSet 7 1 2, .engine] };
      s.busy = true ∧ .reset ∉ s.script) := by
  refine ⟨⟨rfl, ?_⟩, rfl, ?_⟩ <;> decide +kernel

end Sys2Proof.Tests
end

section
/-! SUPPORT. What every completion writes and what it leaves unchanged (R77, R81, R121), the completion step of the
engine's turn (R76), the register writes one by one (R39), and the configuration, which no operation writes (R36). -/

namespace Sys2Proof.Machine

/-! ### The completion of a command -/

/-- What the completion of every command, the illegal word included, has in common: BUSY falls, DONE rises, and neither
the inputs nor IE nor the model's own fields change (R77, R121). The error report, the results and HAZ (which CLEAR
writes, R80) are each command's own. -/
structure Completes (s t : State) : Prop where
  busy : t.busy = false
  done : t.done = true
  cfg : t.cfg = s.cfg
  inLen : t.inLen = s.inLen
  ie : t.ie = s.ie
  cmdl : t.cmdl = s.cmdl
  inMem : t.inMem = s.inMem
  hostRegs : t.hostRegs = s.hostRegs
  script : t.script = s.script
  draws : t.draws = s.draws
  epoch : t.epoch = s.epoch

theorem finish_completes (s : State) : Completes s (finish s) := by constructor <;> rfl

/-- CLEAR's writes before `finish` touch the report, the results and HAZ alone (R80). -/
theorem finish_clear_completes (s : State) :
    Completes s (finish (reportSuccess { s with outLen := 0, lkRes := 0, haz := false })) := by constructor <;> rfl

theorem commitBuffer_completes (out : List Word) (s : State) : Completes s (commitBuffer out s) := by
  constructor <;> rfl

theorem commitLookup_completes (r : Word) (s : State) : Completes s (commitLookup r s) := by constructor <;> rfl

theorem raiseError_completes (c : CommandClass) (e : Raised) (s : State) : Completes s (raiseError c e s) := by
  cases c with
  | buffer => constructor <;> rfl
  | lookup => constructor <;> rfl
  | none => constructor <;> rfl

theorem completeBuffer_completes (r : Except Raised (List Word)) (s : State) : Completes s (completeBuffer r s) := by
  obtain ⟨out, -, h⟩ | ⟨e, -, h⟩ := completeBuffer_cases r s
  · exact h ▸ commitBuffer_completes out s
  · exact h ▸ raiseError_completes .buffer e s

theorem completeLookup_completes (r : Except Raised Word) (s : State) : Completes s (completeLookup r s) := by
  obtain ⟨w, -, h⟩ | ⟨e, -, h⟩ := completeLookup_cases r s
  · exact h ▸ commitLookup_completes w s
  · exact h ▸ raiseError_completes .lookup e s

theorem exec_completes (i : Instr) (s : State) : ∃ t, exec i s = .next t ∧ Completes s t := by
  obtain h | h | ⟨r, h, -⟩ | ⟨r, h, -⟩ := exec_cases i s
  · exact ⟨_, h, finish_completes s⟩
  · exact ⟨_, h, finish_clear_completes s⟩
  · exact ⟨_, h, completeBuffer_completes r s⟩
  · exact ⟨_, h, completeLookup_completes r s⟩

theorem completeCommand_completes (s : State) : ∃ t, completeCommand s = .next t ∧ Completes s t := by
  obtain ⟨i, -, h⟩ | ⟨e, -, h⟩ := completeCommand_cases s
  · exact h ▸ exec_completes i s
  · exact ⟨_, h, raiseError_completes .none _ s⟩

/-- What the engine's turn can do: nothing while idle, else the completion of the command in flight (R76). -/
theorem engineTurn_cases (s : State) :
    (s.busy = false ∧ engineTurn s = .next s) ∨
    (s.busy = true ∧ ∃ t, engineTurn s = .next t ∧ Completes (newMoment s) t) := by
  cases h : s.busy with
  | false => exact .inl ⟨rfl, engineTurn_idle h⟩
  | true => exact .inr ⟨rfl, engineTurn_busy h ▸ completeCommand_completes (newMoment s)⟩

/-! ### Writes of the registers -/

@[simp] theorem writeOneToClear_true (old : Bool) : writeOneToClear old true = false := Bool.and_false old

@[simp] theorem writeOneToClear_false (old : Bool) : writeOneToClear old false = old := Bool.and_true old

/-- A write of CTRL is accepted while idle, else dropped (R17, R75). -/
@[simp] theorem hostWrite_ctrl (v : Word) (s : State) :
    hostWrite 4#24 v s = if s.busy then dropWrite s else acceptCommand v s := rfl

/-- A write of STATUS clears DONE and HAZ where it has a 1 (R19, R21). -/
@[simp] theorem hostWrite_status (v : Word) (s : State) :
    hostWrite 8#24 v s =
      { s with done := writeOneToClear s.done (v.getLsbD 1), haz := writeOneToClear s.haz (v.getLsbD 3) } := rfl

/-- A write of IRQEN sets IE (R28). -/
@[simp] theorem hostWrite_irqEn (v : Word) (s : State) : hostWrite 28#24 v s = { s with ie := v.getLsbD 0 } := rfl

/-! ### The IRQ line (R30) -/

theorem irq_of_done {s : State} (h : s.done = true) : irq s = s.ie := by simp [irq, h]

theorem irq_of_not_done {s : State} (h : s.done = false) : irq s = false := by simp [irq, h]

@[simp] theorem irq_resetOf (c : Config) : irq (State.resetOf c) = false := irq_of_not_done rfl

/-! ### The configuration, which no turn writes (R36) -/

@[simp] theorem hostWrite_cfg (a : Addr) (v : Word) (s : State) : (hostWrite a v s).cfg = s.cfg := by
  obtain ⟨-, h⟩ | ⟨-, h⟩ | ⟨i, -, h⟩ | ⟨-, h⟩ | ⟨-, h⟩ | ⟨-, h⟩ := hostWrite_cases a v s <;> rw [h]
  case inl | inr.inl | inr.inr.inl => split <;> rfl

@[simp] theorem writeTurn_cfg (a : Addr) (v : Source) (s : State) : (writeTurn a v s).cfg = s.cfg :=
  hostWrite_cfg a (sourceValue s v) (newMoment s)

@[simp] theorem readTurn_cfg (r : Fin 8) (a : Addr) (s : State) : (readTurn r a s).cfg = s.cfg := by rw [readTurn_eq]

@[simp] theorem waitTurn_cfg (s : State) : (waitTurn s).cfg = s.cfg := by
  unfold waitTurn
  split
  · exact readTurn_cfg 7 statusAddr s
  · exact readTurn_cfg 7 statusAddr s

@[simp] theorem skipTurn_cfg (r : Fin 8) (mask : Word) (count : Nat) (s : State) :
    (skipTurn r mask count s).cfg = s.cfg := by
  unfold skipTurn
  split <;> rfl

@[simp] theorem resetTurn_cfg (s : State) : (resetTurn s).cfg = s.cfg := rfl

theorem engineTurn_cfg {s t : State} (h : engineTurn s = .next t) : t.cfg = s.cfg := by
  obtain ⟨-, hidle⟩ | ⟨-, u, hbusy, hu⟩ := engineTurn_cases s
  · cases hidle.symm.trans h
    rfl
  · cases hbusy.symm.trans h
    exact hu.cfg

theorem takeTurn_cfg {x : Turn} {s t : State} (h : takeTurn x s = .next t) : t.cfg = s.cfg := by
  cases x with
  | engine => exact engineTurn_cfg h
  | write a v => cases h; exact writeTurn_cfg a v s
  | read r a => cases h; exact readTurn_cfg r a s
  | wait => cases h; exact waitTurn_cfg s
  | skipIfSet r mask count => cases h; exact skipTurn_cfg r mask count s
  | reset => cases h; exact resetTurn_cfg s

theorem step_cfg {s t : State} (h : step s = .next t) : t.cfg = s.cfg := by
  cases hs : s.script with
  | nil => exact engineTurn_cfg (step_nil hs ▸ h)
  | cons x ts =>
    have hturn : t.cfg = { s with script := ts }.cfg := takeTurn_cfg (step_cons hs ▸ h)
    exact hturn

end Sys2Proof.Machine
end

section
/-! PROOF. The obligations of 10_state.md: the configuration, the IRQ line and the state after reset. -/

namespace Sys2Proof.Claims

open Sys2Proof.Machine

/-- Settles O51: a step keeps `cfg`, on which alone both lookups depend. -/
theorem stepKeepsTheConfiguration : Obligations.StepKeepsTheConfiguration := by
  intro s t h
  have hcfg : t.cfg = s.cfg := step_cfg h
  exact ⟨hcfg, fun tier v => by rw [hcfg], fun cp => by rw [hcfg]⟩

/-- Settles O44: each event decides DONE or IE, and the line follows them. -/
theorem irqLineLevel : Obligations.IrqLineLevel := by
  refine ⟨fun s => rfl, fun i s => ?completion, fun s w hidle => ?acceptance, fun s v hclear => ?statusWrite,
    fun s v hset hdone => ?irqEnWrite, irq_resetOf⟩
  case completion =>
    obtain ⟨t, ht, hc⟩ := exec_completes i s
    exact ⟨t, ht, (irq_of_done hc.done).trans hc.ie⟩
  case acceptance => exact irq_of_not_done (by simp [hidle])
  case statusWrite =>
    exact irq_of_not_done (by simp only [BitVec.ofNat_eq_ofNat, hostWrite_status, hclear, writeOneToClear_true])
  case irqEnWrite =>
    have hline : irq (hostWrite 0x00001C v s) = v.getLsbD 0 := irq_of_done hdone
    exact hline.trans hset

/-- Settles O46: R35 is `State.resetOf` item by item, ID is a constant, and the buffers list no entry. -/
theorem resetValues : Obligations.ResetValues := by
  intro c
  refine ⟨rfl, rfl, rfl, rfl, rfl, rfl, rfl, rfl, rfl, rfl, rfl, irq_resetOf c, ?idRead, lookup_nil, lookup_nil⟩
  case idRead => simp [hostRead, idValue]

end Sys2Proof.Claims
end

section
/-! SUPPORT. The address map by window (20_memory.md R39 to R42), and host accesses by target. -/

namespace Sys2Proof.Machine

/-! ### The address map by window -/

theorem target_of_registerWindow (c : Config) {a : Addr} (h : a.toNat < 0x400000) :
    target c a = registerAt (a.toNat / 4) :=
  if_pos (show a.toNat / 4 < 0x100000 by omega)

theorem target_of_inWindow (c : Config) {a : Addr} (h : 0x400000 ≤ a.toNat) (h' : a.toNat < 0x800000) :
    target c a =
      if a.toNat / 4 - 0x100000 < c.inDepth then .inEntry (a.toNat / 4 - 0x100000) else .reserved :=
  (if_neg (show ¬ a.toNat / 4 < 0x100000 by omega)).trans (if_pos (show a.toNat / 4 < 0x200000 by omega))

theorem target_of_outWindow (c : Config) {a : Addr} (h : 0x800000 ≤ a.toNat) (h' : a.toNat < 0xC00000) :
    target c a =
      if a.toNat / 4 - 0x200000 < c.outDepth then .outEntry (a.toNat / 4 - 0x200000) else .reserved :=
  (if_neg (show ¬ a.toNat / 4 < 0x100000 by omega)).trans <|
    (if_neg (show ¬ a.toNat / 4 < 0x200000 by omega)).trans (if_pos (show a.toNat / 4 < 0x300000 by omega))

theorem target_of_aboveWindows (c : Config) {a : Addr} (h : 0xC00000 ≤ a.toNat) : target c a = .reserved :=
  (if_neg (show ¬ a.toNat / 4 < 0x100000 by omega)).trans <|
    (if_neg (show ¬ a.toNat / 4 < 0x200000 by omega)).trans (if_neg (show ¬ a.toNat / 4 < 0x300000 by omega))

/-- The registers end with IRQEN, word 7 (R39, R42). -/
theorem registerAt_of_ge {w : Nat} (h : 8 ≤ w) : registerAt w = .reserved := by
  obtain ⟨n, rfl⟩ := Nat.exists_eq_add_of_le' h
  rfl

/-- Any of the eight words of R39, its low address bits ignored. -/
theorem target_of_register (c : Config) {a : Addr} {n : Nat} (hn : n < 8) (h : a.toNat / 4 = n) :
    target c a = registerAt n :=
  h ▸ target_of_registerWindow c (show a.toNat < 0x400000 by omega)

/-- The four reserved ranges of R42. -/
theorem target_of_reservedRange (c : Config) {a : Addr}
    (h : (0x000020 ≤ a.toNat ∧ a.toNat ≤ 0x3FFFFF) ∨
      (0x400000 + 4 * c.inDepth ≤ a.toNat ∧ a.toNat ≤ 0x7FFFFF) ∨
      (0x800000 + 4 * c.outDepth ≤ a.toNat ∧ a.toNat ≤ 0xBFFFFF) ∨ 0xC00000 ≤ a.toNat) :
    target c a = .reserved := by
  obtain ⟨hlo, hhi⟩ | ⟨hlo, hhi⟩ | ⟨hlo, hhi⟩ | habove := h
  · rw [target_of_registerWindow c (by omega), registerAt_of_ge (by omega)]
  · rw [target_of_inWindow c (by omega) (by omega), if_neg (by omega)]
  · rw [target_of_outWindow c (by omega) (by omega), if_neg (by omega)]
  · exact target_of_aboveWindows c habove

/-! ### Host accesses by target -/

/-- The targets no host write reaches (R42, R43). -/
def Target.ignoresWrites (t : Target) : Prop :=
  t ∈ [.id, .errPos, .outLen, .lkRes, .reserved] ∨ ∃ k, t = .outEntry k

theorem hostWrite_of_ignoresWrites {a : Addr} {s : State} (h : (target s.cfg a).ignoresWrites) (v : Word) :
    hostWrite a v s = s := by
  obtain ⟨ht, -⟩ | ⟨ht, -⟩ | ⟨i, ht, -⟩ | ⟨ht, -⟩ | ⟨ht, -⟩ | ⟨-, hs⟩ := hostWrite_cases a v s
  case inr.inr.inr.inr.inr => exact hs
  all_goals simp [Target.ignoresWrites, ht] at h

theorem hostWrite_of_status {a : Addr} {s : State} (h : target s.cfg a = .status) (v : Word) :
    hostWrite a v s =
      { s with done := writeOneToClear s.done (v.getLsbD 1), haz := writeOneToClear s.haz (v.getLsbD 3) } := by
  simp only [hostWrite, h]

theorem hostWrite_of_irqEn {a : Addr} {s : State} (h : target s.cfg a = .irqEn) (v : Word) :
    hostWrite a v s = { s with ie := v.getLsbD 0 } := by
  simp only [hostWrite, h]

theorem hostRead_of_reserved {a : Addr} {s : State} (h : target s.cfg a = .reserved) : hostRead a s = 0 := by
  simp only [hostRead, h]

/-- ID, ERRPOS, OUT_LEN and LKRES are read only (R43). -/
theorem registerAt_ignoresWrites {w : Nat} (h : w ∈ [0, 3, 5, 6]) : (registerAt w).ignoresWrites := by
  simp only [List.mem_cons, List.not_mem_nil, or_false] at h
  obtain rfl | rfl | rfl | rfl := h <;> simp [registerAt, Target.ignoresWrites]

/-- Every word of the OUT window is a read-only entry or reserved (R41, R42). -/
theorem target_outWindow_ignoresWrites (c : Config) {a : Addr} (h : 0x800000 ≤ a.toNat) (h' : a.toNat < 0xC00000) :
    (target c a).ignoresWrites := by
  rw [target_of_outWindow c h h']
  split
  · exact .inr ⟨_, rfl⟩
  · exact .inl (by simp)

end Sys2Proof.Machine
end

section
/-! PROOF. The obligations of 20_memory.md: reserved words and read-only words. -/

namespace Sys2Proof.Claims

open Sys2Proof.Machine

/-- Settles O35: each of the four ranges lies in one window, at words that window leaves reserved. -/
theorem reservedWordsReadZero : Obligations.ReservedWordsReadZero := by
  intro a v s hrange
  have ht : target s.cfg a = .reserved := target_of_reservedRange s.cfg hrange
  exact ⟨hostRead_of_reserved ht, hostWrite_of_ignoresWrites (.inl (by simp [ht])) v⟩

/-- Settles O36: the read-only targets ignore the word, STATUS looks at its bits 1 and 3, IRQEN at its bit 0. -/
theorem readOnlyWordsIgnoreWrites : Obligations.ReadOnlyWordsIgnoreWrites := by
  intro a v s
  have status (h : a.toNat / 4 = 2) : target s.cfg a = .status := target_of_register s.cfg (by omega) h
  have irqEn (h : a.toNat / 4 = 7) : target s.cfg a = .irqEn := target_of_register s.cfg (by omega) h
  refine ⟨fun h => hostWrite_of_ignoresWrites ?readOnly v, fun h => ?statusBits, fun h h1 h3 => ?statusClear,
    fun h => ?irqEnBit⟩
  case readOnly =>
    obtain hreg | ⟨hlo, hhi⟩ := h
    · have hlt : a.toNat / 4 < 8 := by
        simp only [List.mem_cons, List.not_mem_nil, or_false] at hreg
        omega
      rw [target_of_register s.cfg hlt rfl]
      exact registerAt_ignoresWrites hreg
    · exact target_outWindow_ignoresWrites s.cfg hlo (by omega)
  case statusBits =>
    rw [hostWrite_of_status (status h), hostWrite_of_status (status h)]
    simp
  case statusClear =>
    rw [hostWrite_of_status (status h), h1, h3, writeOneToClear_false, writeOneToClear_false]
  case irqEnBit =>
    rw [hostWrite_of_irqEn (irqEn h), hostWrite_of_irqEn (irqEn h)]
    simp

end Sys2Proof.Claims
end

section
/-! SUPPORT. The decoder by the rows of the opcode map: the command of each row, and that the word's own row decides
(30_encoding.md R58, R63, R64). -/

namespace Sys2Proof.Laws

open Sys2Proof.Claims

/-- The row of a command matches the word (R63). -/
def SelectsRowOf (i : Instr) (w : Word) : Prop := selects (formatOf i) (opcodeOf i) w = true

/-- The commands of the map's seven rows, each with the word's operand slices (R66 to R68). -/
def rowCommands (w : Word) : List Instr :=
  [.nop, .resize (w.slice 12 8) (w.slice 17 13) (w.slice 22 18), .encode, .decode, .fwd (w.slice 7 4) (w.slice 22 8),
   .rev (w.slice 28 8), .clear]

theorem rowCommands_opcodes (w : Word) : (rowCommands w).map opcodeOf = List.range 7 := rfl

theorem opcodeOf_lt (i : Instr) : opcodeOf i < 7 := by cases i <;> simp [opcodeOf]

/-- "The matches differ in bits [3:0]" (R63). -/
theorem rowCommands_opcodes_distinct (w : Word) : (rowCommands w).Pairwise fun i j => opcodeOf i ≠ opcodeOf j :=
  List.pairwise_map.1 (rowCommands_opcodes w ▸ List.nodup_range)

/-- "Every mask includes bits [3:0]" (R63). -/
theorem mask_and_opcodeBits (f : Format) : f.mask &&& 15 = 15 := by cases f <;> rfl

theorem opOf_eq_and (w : Word) : opOf w = (w &&& 15).toNat := by
  have hslice : opOf w = w.toNat % 2 ^ 4 := by simp [opOf, Word.slice]
  rw [hslice, BitVec.toNat_and]
  exact (Nat.and_two_pow_sub_one_eq_mod w.toNat 4).symm

theorem opcodeBits_of_lt : ∀ n < 7, (BitVec.ofNat 32 n &&& 15).toNat = n := by decide

/-- A word's OP is the opcode of a row it matches: the mask keeps OP, and the match is the bare opcode (R58, R63). -/
theorem opOf_of_selectsRowOf {i : Instr} {w : Word} (h : SelectsRowOf i w) : opOf w = opcodeOf i := by
  have hrow : w &&& (formatOf i).mask = BitVec.ofNat 32 (opcodeOf i) := (selects_iff _ _ w).1 h
  have hop : w &&& 15 = BitVec.ofNat 32 (opcodeOf i) &&& 15 := by
    rw [← hrow, BitVec.and_assoc, mask_and_opcodeBits]
  rw [opOf_eq_and, hop, opcodeBits_of_lt _ (opcodeOf_lt i)]

/-- The decoder looks at the row of the word's OP alone (R58). -/
theorem decodeWord_of_opOf {i : Instr} {w : Word} (hi : i ∈ rowCommands w) (hop : opOf w = opcodeOf i) :
    decodeWord w = decodeRow (formatOf i) (opcodeOf i) i w := by
  simp only [rowCommands, List.mem_cons, List.not_mem_nil, or_false] at hi
  obtain rfl | rfl | rfl | rfl | rfl | rfl | rfl := hi <;> simp only [decodeWord, hop, opcodeOf, formatOf]

/-- OP 0x7 to 0xF is reserved (R65). -/
theorem decodeWord_of_reserved {w : Word} (h : 7 ≤ opOf w) : decodeWord w = .error (.reservedOpcode (opOf w)) := by
  obtain ⟨n, hn⟩ := Nat.exists_eq_add_of_le' h
  simp only [decodeWord, hn]

/-- Every opcode below 7 has a row. -/
theorem exists_rowCommand {w : Word} (h : opOf w < 7) : ∃ i ∈ rowCommands w, opcodeOf i = opOf w :=
  List.mem_map.1 (rowCommands_opcodes w ▸ List.mem_range.2 h)

/-- The decoder answers a command exactly when it is a row's command and the word matches that row (R63, R64). -/
theorem decodeWord_eq_ok_iff (w : Word) (i : Instr) :
    decodeWord w = .ok i ↔ i ∈ rowCommands w ∧ SelectsRowOf i w := by
  constructor
  · intro h
    by_cases hop : opOf w < 7
    · obtain ⟨j, hj, hjop⟩ := exists_rowCommand hop
      rw [decodeWord_of_opOf hj hjop.symm, decodeRow_eq_ok_iff] at h
      obtain ⟨hsel, rfl⟩ := h
      exact ⟨hj, hsel⟩
    · rw [decodeWord_of_reserved (not_lt.1 hop)] at h
      cases h
  · rintro ⟨hi, hsel⟩
    rw [decodeWord_of_opOf hi (opOf_of_selectsRowOf hsel), decodeRow_eq_ok_iff]
    exact ⟨hsel, rfl⟩

/-! ### The rows of `opcodeMap` -/

/-- A row of the map: the mask and match of a command's format and opcode, with the command. -/
def rowOf (i : Instr) : Nat × Nat × Instr := ((formatOf i).mask.toNat, opcodeOf i, i)

theorem opcodeMap_eq (w : Word) : opcodeMap w.toNat = (rowCommands w).map rowOf := rfl

/-- The map's test on numbers is the decoder's test on words (R63). -/
theorem rowOf_matches_iff (w : Word) (i : Instr) :
    w.toNat &&& (rowOf i).1 = (rowOf i).2.1 ↔ SelectsRowOf i w := by
  have hfit : opcodeOf i < 2 ^ 32 := (opcodeOf_lt i).trans (by decide)
  rw [SelectsRowOf, selects_iff, ← BitVec.toNat_inj, BitVec.toNat_and, BitVec.toNat_ofNat, Nat.mod_eq_of_lt hfit]
  rfl

end Sys2Proof.Laws
end

section
/-! PROOF. The obligation of 30_encoding.md on the opcode map. -/

namespace Sys2Proof.Claims

open Sys2Proof.Laws

/-- Settles O3: a matched row decides OP, OP decides the row, and the decoder answers `.ok` only for a matched row. -/
theorem opcodeMapSelectsTheCommand : Obligations.OpcodeMapSelectsTheCommand := by
  intro w
  rw [opcodeMap_eq, List.forall_mem_map, List.forall_mem_map, List.pairwise_map]
  simp only [ne_eq, rowOf_matches_iff]
  refine ⟨fun i hi hsel => ?matched, ?unique, fun hnone => ?unmatched⟩
  case matched => exact (decodeWord_eq_ok_iff w i).2 ⟨hi, hsel⟩
  case unique =>
    refine (rowCommands_opcodes_distinct w).imp fun {i j} hne ⟨hi, hj⟩ => hne ?_
    exact (opOf_of_selectsRowOf hi).symm.trans (opOf_of_selectsRowOf hj)
  case unmatched =>
    cases h : decodeWord w with
    | error e => exact ⟨e, rfl⟩
    | ok i =>
      obtain ⟨hi, hsel⟩ := (decodeWord_eq_ok_iff w i).1 h
      exact absurd hsel (hnone i hi)

end Sys2Proof.Claims
end

section
/-! SUPPORT. The words of the commands without operands (30_encoding.md R58, R59, R63). -/

namespace Sys2Proof.Laws

theorem opcodeOf_eq_zero_iff (i : Instr) : opcodeOf i = 0 ↔ i = .nop := by cases i <;> simp [opcodeOf]

/-- Format N reserves every bit above OP, so its row is matched by the bare opcode alone (R59). -/
theorem selectsRowOf_iff_of_noOperands {i : Instr} (hi : formatOf i = .n) (w : Word) :
    SelectsRowOf i w ↔ w = BitVec.ofNat 32 (opcodeOf i) := by
  have hmask : w &&& Format.n.mask = w := BitVec.and_allOnes
  rw [SelectsRowOf, selects_iff, hi, hmask]

theorem mem_rowCommands_of_noOperands {i : Instr} (hi : formatOf i = .n) (w : Word) : i ∈ rowCommands w := by
  cases i with
  | nop | encode | decode | clear => simp [rowCommands]
  | resize | fwd | rev => cases hi

/-- NOP, ENCODE, DECODE and CLEAR have one word each. -/
theorem decodeWord_eq_ok_iff_of_noOperands {i : Instr} (hi : formatOf i = .n) (w : Word) :
    decodeWord w = .ok i ↔ w = BitVec.ofNat 32 (opcodeOf i) := by
  rw [decodeWord_eq_ok_iff, and_iff_right (mem_rowCommands_of_noOperands hi w), selectsRowOf_iff_of_noOperands hi]

/-- The decoder answers only a command of the word's own OP (R58). -/
theorem opcodeOf_of_decodeWord {w : Word} {i : Instr} (h : decodeWord w = .ok i) : opcodeOf i = w.toNat % 16 := by
  obtain ⟨-, hsel⟩ := (decodeWord_eq_ok_iff w i).1 h
  have hop : opOf w = w.toNat % 16 := by simp [opOf, Word.slice]
  exact (opOf_of_selectsRowOf hsel).symm.trans hop

end Sys2Proof.Laws
end

section
/-! SUPPORT. A CTRL write in either state of BUSY (40_control.md R75), the completion of an illegal word (R81), and
reads of the OUT window while OUT_LEN = 0 (20_memory.md R41). -/

namespace Sys2Proof.Machine

theorem hostWrite_ctrl_idle {s : State} (h : s.busy = false) (v : Word) :
    hostWrite 0x000004 v s = acceptCommand v s :=
  (hostWrite_ctrl v s).trans (by rw [h]; rfl)

theorem hostWrite_ctrl_busy {s : State} (h : s.busy = true) (v : Word) : hostWrite 0x000004 v s = dropWrite s :=
  (hostWrite_ctrl v s).trans (by rw [h]; rfl)

theorem completeCommand_of_illegal {s : State} {e : Illegal} (h : decodeWord s.cmdl = .error e) :
    completeCommand s = .next (raiseError .none ⟨.illegalCommand, none⟩ s) := by
  obtain ⟨i, hi, -⟩ | ⟨-, -, hraise⟩ := completeCommand_cases s
  · cases hi.symm.trans h
  · exact hraise

theorem hostRead_of_outEntry {a : Addr} {s : State} {k : Nat} (h : target s.cfg a = .outEntry k) :
    hostRead a s = outEntryRead a k s := by
  simp only [hostRead, h]

theorem outEntryRead_of_outLen_zero {s : State} (h : s.outLen = 0) (a : Addr) (k : Nat) :
    outEntryRead a k s = freeAt a s := by
  simp [outEntryRead, h]

/-- With OUT_LEN = 0 no output entry holds a result, so each reads a free value. -/
theorem hostRead_outAddr_of_outLen_zero {s : State} (h : s.outLen = 0) {k : Nat} (hk : k < 2 ^ 20) :
    hostRead (BitVec.ofNat 24 (0x800000 + 4 * k)) s =
      if k < s.cfg.outDepth then freeAt (BitVec.ofNat 24 (0x800000 + 4 * k)) s else 0 := by
  have htarget := target_outAddr s.cfg hk
  split at htarget
  case isTrue hin => rw [hostRead_of_outEntry htarget, outEntryRead_of_outLen_zero h, if_pos hin]
  case isFalse hout => rw [hostRead_of_reserved htarget, if_neg hout]

/-- OUT_MEM selects no free value, so the entries that stay behind are out of the host's sight. -/
theorem outputIsUnspecified_of_outLen_zero {t : State} (h : t.outLen = 0) : Claims.outputIsUnspecified t :=
  fun _ m hk =>
    (hostRead_outAddr_of_outLen_zero (s := { t with outMem := m }) h hk).trans
      (hostRead_outAddr_of_outLen_zero h hk).symm

end Sys2Proof.Machine
end

section
/-! PROOF. The obligations of 40_control.md: acceptance, the illegal word, NOP and CLEAR. -/

namespace Sys2Proof.Claims

open Sys2Proof.Machine Sys2Proof.Laws

/-- Settles O5: BUSY decides between `dropWrite` and `acceptCommand`, whose writes these are. -/
theorem ctrlWriteIsAcceptedOrDropped : Obligations.CtrlWriteIsAcceptedOrDropped :=
  fun _ w => ⟨fun hbusy => hostWrite_ctrl_busy hbusy w, fun hidle => hostWrite_ctrl_idle hidle w⟩

/-- Settles O8: acceptance does not look at the word, the accepted word is what the completion step decodes, and the
opcode map leaves it no row. -/
theorem illegalWordCompletesWithAnError : Obligations.IllegalWordCompletesWithAnError := by
  intro s w v hidle hnone
  obtain ⟨-, -, hillegal⟩ := opcodeMapSelectsTheCommand w
  obtain ⟨e, he⟩ := hillegal hnone
  have hdropped : hostWrite 0x000004 v (acceptCommand w s) = dropWrite (acceptCommand w s) :=
    hostWrite_ctrl_busy (acceptCommand_busy s w) v
  have hraised : completeCommand (acceptCommand w s) =
      .next (raiseError .none ⟨.illegalCommand, none⟩ (acceptCommand w s)) := completeCommand_of_illegal he
  rw [hostWrite_ctrl_idle hidle w]
  exact ⟨rfl, hdropped, hraised⟩

/-- Settles O9: a legal word with OP = 0 is NOP's, which is 0, and NOP's completion is `finish`. -/
theorem nopWritesBusyAndDoneOnly : Obligations.NopWritesBusyAndDoneOnly := by
  have nopWord (w : Word) : decodeWord w = .ok .nop ↔ w = 0 := decodeWord_eq_ok_iff_of_noOperands rfl w
  refine ⟨nopWord, fun w hop hne => ?illegal, fun s => ⟨rfl, irq_of_done rfl⟩⟩
  case illegal =>
    cases h : decodeWord w with
    | error e => exact ⟨e, rfl⟩
    | ok i =>
      obtain rfl : i = .nop := (opcodeOf_eq_zero_iff i).1 ((opcodeOf_of_decodeWord h).trans hop)
      exact absurd ((nopWord w).1 h) hne

/-- Settles O10: CLEAR's word is its opcode, and OUT_LEN = 0 hides what OUT_MEM still holds. -/
theorem clearZeroesReportAndResults : Obligations.ClearZeroesReportAndResults := by
  refine ⟨fun w => decodeWord_eq_ok_iff_of_noOperands rfl w, fun s => ⟨rfl, ?unspecified⟩⟩
  case unspecified => exact outputIsUnspecified_of_outLen_zero rfl

end Sys2Proof.Claims
end

section
/-! SUPPORT. The regrouper in the terms of rule R86 (41_regrouper.md): the groups of T bits, the stream bit by bit, and
the regrouping as the list of the groups `⟨V_k, W_k⟩` (`regroup_eq_map`). -/

namespace Sys2Proof.Machine

open Sys2Proof.Claims

/-! ### The groups of T bits -/

/-- Group k exists exactly when a bit is left for it. -/
theorem lt_ceilDiv_iff {outW : Nat} (ho : 1 ≤ outW) (T k : Nat) : k < ceilDiv T outW ↔ k * outW < T := by
  rw [ceilDiv, ← Nat.succ_le_iff, Nat.le_div_iff_mul_le ho, Nat.succ_mul]
  omega

/-- A group takes `outW` bits, or what is left of the stream. -/
theorem groupWidth_eq_min {T outW k : Nat} (ho : 1 ≤ outW) (hk : k < ceilDiv T outW) :
    groupWidth T outW k = min outW (T - k * outW) := by
  unfold groupWidth
  split
  case isTrue hnext =>
    rw [lt_ceilDiv_iff ho, Nat.succ_mul] at hnext
    omega
  case isFalse hlast =>
    have hk' : ceilDiv T outW - 1 = k := by omega
    rw [lt_ceilDiv_iff ho, Nat.succ_mul] at hlast
    rw [hk']
    omega

theorem groupWidth_bounds {T outW k : Nat} (ho : 1 ≤ outW) (hk : k < ceilDiv T outW) :
    1 ≤ groupWidth T outW k ∧ groupWidth T outW k ≤ outW ∧ k * outW + groupWidth T outW k ≤ T := by
  have hbit : k * outW < T := (lt_ceilDiv_iff ho T k).1 hk
  rw [groupWidth_eq_min ho hk]
  omega

/-- R87: some group is short exactly when the groups do not divide the stream evenly. -/
theorem exists_groupWidth_lt_iff {outW : Nat} (ho : 1 ≤ outW) (T : Nat) :
    (∃ k < ceilDiv T outW, groupWidth T outW k < outW) ↔ T % outW ≠ 0 := by
  have hdiv : T / outW * outW + T % outW = T := Nat.div_add_mod' T outW
  constructor
  · rintro ⟨k, hk, hshort⟩
    have hbit : k * outW < T := (lt_ceilDiv_iff ho T k).1 hk
    rw [groupWidth_eq_min ho hk] at hshort
    have hrest : T - k * outW < outW := by omega
    have hmod : T % outW = T - k * outW :=
      calc T % outW = (T - k * outW + k * outW) % outW := by rw [Nat.sub_add_cancel hbit.le]
        _ = (T - k * outW) % outW := Nat.add_mul_mod_self_right ..
        _ = T - k * outW := Nat.mod_eq_of_lt hrest
    omega
  · intro hmod
    have hlt : T % outW < outW := Nat.mod_lt T ho
    have hk : T / outW < ceilDiv T outW := (lt_ceilDiv_iff ho T _).2 (by omega)
    refine ⟨T / outW, hk, ?_⟩
    rw [groupWidth_eq_min ho hk]
    omega

/-! ### The stream, bit by bit -/

theorem streamBits_length_eq_totalBits (inW lastW : Nat) (es : List Nat) :
    (streamBits inW lastW es).length = totalBits es.length inW lastW := streamBits_length inW lastW es

theorem elementBits_eq_map (e w : Nat) :
    elementBits e w = (List.range w).map fun m => e / 2 ^ (w - 1 - m) % 2 := by
  apply List.ext_getElem?
  intro m
  rw [elementBits_getElem?]
  by_cases hm : m < w <;> simp [hm]

/-- The first element's bits, when another element follows. -/
theorem streamBit_of_lt {elem : Nat → Nat} {L inW lastW m : Nat} (hL : L ≠ 1) (hm : m < inW) :
    streamBit elem L inW lastW m = elem 0 / 2 ^ (inW - 1 - m) % 2 := by
  simp [streamBit, elementWidth, Nat.div_eq_of_lt hm, Nat.mod_eq_of_lt hm, Ne.symm hL]

/-- Behind the first element lies the stream of the others. -/
theorem streamBit_add (elem : Nat → Nat) (L lastW n : Nat) {inW : Nat} (hi : 1 ≤ inW) :
    streamBit elem (L + 1) inW lastW (inW + n) = streamBit (fun i => elem (i + 1)) L inW lastW n := by
  simp [streamBit, elementWidth, Nat.add_div_left n hi]

/-- R86: the stream is s[0], ..., s[T-1]. -/
theorem streamBits_eq_map {inW lastW : Nat} (hi : 1 ≤ inW) (hl : lastW ≤ inW) (es : List Nat) :
    streamBits inW lastW es =
      (List.range (totalBits es.length inW lastW)).map (streamBit (fun i => es.getD i 0) es.length inW lastW) := by
  induction es with
  | nil => rfl
  | cons e es ih =>
    cases es with
    | nil =>
      rw [streamBits, elementBits_eq_map]
      have hT : totalBits [e].length inW lastW = lastW := by simp [totalBits]
      rw [hT]
      refine List.map_congr_left fun m hm => ?_
      have hm' : m < inW := (List.mem_range.1 hm).trans_le hl
      simp [streamBit, elementWidth, Nat.div_eq_of_lt hm', Nat.mod_eq_of_lt hm']
    | cons e' es =>
      have hT : totalBits (e :: e' :: es).length inW lastW = inW + totalBits (e' :: es).length inW lastW := by
        simp only [totalBits, List.length_cons, Nat.add_one_ne_zero, if_false, Nat.add_sub_cancel]
        ring
      rw [streamBits, ih, elementBits_eq_map, hT, List.range_add, List.map_append, List.map_map]
      have hL : (e :: e' :: es).length ≠ 1 := by simp
      congr 1
      · refine List.map_congr_left fun m hm => ?_
        exact (streamBit_of_lt (elem := fun i => (e :: e' :: es).getD i 0) hL (List.mem_range.1 hm)).symm
      · exact List.map_congr_left fun n _ =>
          (streamBit_add (fun i => (e :: e' :: es).getD i 0) (e' :: es).length lastW n hi).symm

/-! ### The pieces of the stream as groups -/

/-- R86: `V_k` of a list of bits given by a function. -/
theorem groupOf_piece (f : Nat → Nat) {T outW k : Nat} (ho : 1 ≤ outW) (hk : k < ceilDiv T outW) :
    groupOf ((((List.range T).map f).drop (k * outW)).take outW) =
      ⟨bitsValue f (k * outW) (groupWidth T outW k), groupWidth T outW k⟩ := by
  have hlen : ((((List.range T).map f).drop (k * outW)).take outW).length = groupWidth T outW k := by
    simp [groupWidth_eq_min ho hk]
  obtain ⟨-, hle, hend⟩ := groupWidth_bounds ho hk
  rw [groupOf, pack_eq_sum, hlen, bitsValue]
  congr 1
  refine Finset.sum_congr rfl fun m hm => ?_
  have hm' : m < groupWidth T outW k := Finset.mem_range.1 hm
  congr 1
  rw [List.getD_eq_getElem?_getD, List.getElem?_take_of_lt (by omega), List.getElem?_drop, List.getElem?_map,
    List.getElem?_range (by omega)]
  rfl

theorem chunks_map_range (f : Nat → Nat) (T : Nat) {outW : Nat} (ho : 1 ≤ outW) :
    chunks outW ((List.range T).map f) =
      (List.range (ceilDiv T outW)).map fun k =>
        ⟨bitsValue f (k * outW) (groupWidth T outW k), groupWidth T outW k⟩ := by
  rw [chunks, List.length_map, List.length_range]
  exact List.map_congr_left fun k hk => groupOf_piece f ho (List.mem_range.1 hk)

/-- R86: Regroup returns the groups `⟨V_k, W_k⟩` for k < G. -/
theorem regroup_eq_map (elems : List Nat) {inW outW lastW : Nat} (hi : 1 ≤ inW) (ho : 1 ≤ outW) (ho' : outW ≤ 16)
    (hl : lastW ≤ inW) :
    regroup elems inW outW lastW =
      (List.range (ceilDiv (totalBits elems.length inW lastW) outW)).map fun k =>
        ⟨groupValue (fun i => elems.getD i 0) elems.length inW outW lastW k,
          groupWidth (totalBits elems.length inW lastW) outW k⟩ := by
  rw [regroup_eq_chunks elems inW lastW ho ho', streamBits_eq_map hi hl, chunks_map_range _ _ ho]
  rfl

/-! ### The bits that are read -/

/-- Bits below `w` depend on the low `w` bits alone. -/
theorem div_mod_two_congr {a b w j : Nat} (hj : j < w) (h : a % 2 ^ w = b % 2 ^ w) :
    a / 2 ^ j % 2 = b / 2 ^ j % 2 := by
  have hbit : a.testBit j = b.testBit j := by
    have := congrArg (Nat.testBit · j) h
    simpa [Nat.testBit_mod_two_pow, hj] using this
  rw [← Nat.toNat_testBit, ← Nat.toNat_testBit, hbit]

/-- Every bit of the stream is a bit of an element (R86). -/
theorem div_lt_of_lt_totalBits {L inW lastW n : Nat} (hl : lastW ≤ inW) (hn : n < totalBits L inW lastW) :
    n / inW < L := by
  cases L with
  | zero => simp [totalBits] at hn
  | succ L =>
    rw [totalBits, if_neg L.succ_ne_zero, Nat.add_sub_cancel] at hn
    exact Nat.div_lt_of_lt_mul (by rw [Nat.mul_comm, Nat.succ_mul]; omega)

/-- R85: the stream holds valid bits only. -/
theorem streamBit_congr {e f : Nat → Nat} {L inW lastW n : Nat} (h1 : 1 ≤ lastW) (hl : lastW ≤ inW)
    (h : ∀ i, i < L → e i % 2 ^ elementWidth L inW lastW i = f i % 2 ^ elementWidth L inW lastW i)
    (hn : n < totalBits L inW lastW) : streamBit e L inW lastW n = streamBit f L inW lastW n := by
  have hw : 1 ≤ elementWidth L inW lastW (n / inW) := by
    unfold elementWidth
    split <;> omega
  exact div_mod_two_congr (by omega) (h _ (div_lt_of_lt_totalBits hl hn))

theorem groupValue_congr {e f : Nat → Nat} {L inW outW lastW k : Nat} (ho : 1 ≤ outW) (h1 : 1 ≤ lastW)
    (hl : lastW ≤ inW) (h : ∀ i, i < L → e i % 2 ^ elementWidth L inW lastW i = f i % 2 ^ elementWidth L inW lastW i)
    (hk : k < ceilDiv (totalBits L inW lastW) outW) :
    groupValue e L inW outW lastW k = groupValue f L inW outW lastW k := by
  obtain ⟨-, -, hend⟩ := groupWidth_bounds ho hk
  unfold groupValue bitsValue
  refine Finset.sum_congr rfl fun m hm => ?_
  have hm' := Finset.mem_range.1 hm
  rw [streamBit_congr h1 hl h (by omega)]

end Sys2Proof.Machine
end

section
/-! SUPPORT. The accumulator between two shifts (41_regrouper.md R89). -/

namespace Sys2Proof.Machine

theorem shiftLeft_one_or_bit {bit : Nat} (hb : bit < 2) (acc : Nat) : acc <<< 1 ||| bit = 2 * acc + bit := by
  rw [← Nat.shiftLeft_add_eq_or_of_lt (by simpa using hb), Nat.shiftLeft_eq]
  ring

/-- What R89 says of the registers before each shift, and of the groups emitted so far. -/
structure Regrouper.Fits (outW : Nat) (r : Regrouper) : Prop where
  /-- There is room for another bit. -/
  room    : r.nheld < outW
  /-- ACC holds NHELD bits. -/
  acc     : r.acc < 2 ^ r.nheld
  /-- Every emitted value fits its width. -/
  emitted : ∀ g ∈ r.out, g.value < 2 ^ g.width

theorem Regrouper.start_fits {outW : Nat} (ho : 1 ≤ outW) : Regrouper.start.Fits outW where
  room    := ho
  acc     := Nat.one_pos
  emitted := by simp [Regrouper.start]

/-- The number after a shift, before R84 cuts it to 16 bits. -/
theorem Regrouper.Fits.shifted_lt {outW bit : Nat} {r : Regrouper} (h : r.Fits outW) (hb : bit < 2) :
    2 * r.acc + bit < 2 ^ (r.nheld + 1) := by
  have hacc := h.acc
  rw [pow_succ]
  omega

theorem Regrouper.Fits.shiftIn {outW bit : Nat} {r : Regrouper} (ho : outW ≤ 16) (h : r.Fits outW) (hb : bit < 2) :
    (Machine.shiftIn outW r bit).Fits outW := by
  have hshifted : 2 * r.acc + bit < 2 ^ (r.nheld + 1) := h.shifted_lt hb
  have hstep : Machine.shiftIn outW r bit =
      if r.nheld + 1 = outW then ⟨0, 0, r.out ++ [⟨2 * r.acc + bit, outW⟩]⟩ else ⟨2 * r.acc + bit, r.nheld + 1, r.out⟩ :=
    shiftIn_room r.out ho h.room h.acc hb
  rw [hstep]
  split
  case isTrue hfull =>
    refine ⟨Nat.zero_lt_of_lt h.room, Nat.one_pos, List.forall_mem_append.2 ⟨h.emitted, ?_⟩⟩
    simpa [← hfull] using hshifted
  case isFalse hheld => exact ⟨lt_of_le_of_ne h.room hheld, hshifted, h.emitted⟩

/-- R89: the invariant, after any bits. -/
theorem Regrouper.Fits.foldl {outW : Nat} {r : Regrouper} (ho : outW ≤ 16) (h : r.Fits outW) {bits : List Nat}
    (hb : ∀ b ∈ bits, b < 2) : (bits.foldl (Machine.shiftIn outW) r).Fits outW := by
  induction bits generalizing r with
  | nil => exact h
  | cons b bs ih =>
    obtain ⟨hb0, hbs⟩ := List.forall_mem_cons.1 hb
    exact ih (h.shiftIn ho hb0) hbs

theorem Regrouper.Fits.emitPartial {outW : Nat} {r : Regrouper} (h : r.Fits outW) :
    ∀ g ∈ Machine.emitPartial r, g.value < 2 ^ g.width := by
  unfold Machine.emitPartial
  split
  · exact List.forall_mem_append.2 ⟨h.emitted, by simpa using h.acc⟩
  · exact h.emitted

/-- Every group of a regrouping fits its width (R11, R89). -/
theorem regroup_value_lt {elems : List Nat} {inW outW lastW : Nat} (ho : 1 ≤ outW) (ho' : outW ≤ 16) :
    ∀ g ∈ regroup elems inW outW lastW, g.value < 2 ^ g.width := by
  rw [regroup, shiftInElements_eq_foldl]
  exact ((Regrouper.start_fits ho).foldl ho' fun _ => streamBits_lt_two).emitPartial

end Sys2Proof.Machine
end

section
/-! SUPPORT. RESIZE outcome by outcome (41_regrouper.md R90), its output words (30_encoding.md R71), and the completion
of a buffer command in the terms of `BufferDone` and `BufferFailed` (R77, R121). -/

namespace Sys2Proof.Machine

open Sys2Proof.Claims

/-! ### The completion of a buffer command -/

theorem raiseError_bufferFailed (e : Raised) (s : State) :
    BufferFailed s (raiseError .buffer e s) (errCodeOf e.err) (posWord e.pos) := rfl

theorem commitBuffer_bufferDone {out : List Word} {s : State} {n : Nat} {word : Nat → Word} (hlen : out.length = n)
    (hfit : n < 2 ^ 32) (hword : ∀ k, k < n → out[k]? = some (word k)) : BufferDone s (commitBuffer out s) n word := by
  subst hlen
  refine ⟨rfl, Nat.mod_eq_of_lt hfit, fun k hk => ?_, fun k hk => ?_⟩
  · exact (lookup_storeAll_zero out s.outMem k).trans ((if_pos hk).trans (hword k hk))
  · exact (lookup_storeAll_zero out s.outMem k).trans (if_neg (Nat.not_lt.2 hk))

/-! ### The outcome of RESIZE -/

theorem widthsLegal_iff (inW outW lastW : Nat) :
    widthsLegal inW outW lastW = true ↔ 1 ≤ inW ∧ inW ≤ 16 ∧ 1 ≤ outW ∧ outW ≤ 16 ∧ 1 ≤ lastW ∧ lastW ≤ inW := by
  simp only [widthsLegal, Bool.and_eq_true, decide_eq_true_eq, and_assoc]

/-- RESIZE's result, before it is held against OUT_DEPTH. -/
def resizeWords (inW outW lastW : Nat) (s : State) : List Word :=
  (regroup ((inEntries s).map elementOf) inW outW lastW).map groupWord

theorem resizeOutcome_of_badWidth {inW outW lastW : Nat} (hw : ¬ widthsLegal inW outW lastW = true) (s : State) :
    resizeOutcome inW outW lastW s = .error ⟨.badWidth, none⟩ := if_neg hw

theorem resizeOutcome_of_inputLength {inW outW lastW : Nat} {s : State} (hw : widthsLegal inW outW lastW = true)
    (hL : s.cfg.inDepth < s.inLen.toNat) : resizeOutcome inW outW lastW s = .error ⟨.inputLength, none⟩ := by
  rw [resizeOutcome, if_pos hw, checkInputLength_error hL]

theorem resizeOutcome_of_inputFits {inW outW lastW : Nat} {s : State} (hw : widthsLegal inW outW lastW = true)
    (hL : s.inLen.toNat ≤ s.cfg.inDepth) :
    resizeOutcome inW outW lastW s = checkCapacity s (resizeWords inW outW lastW s) := by
  rw [resizeOutcome, if_pos hw, checkInputLength_ok hL, resizeWords]

theorem exec_resize (inW outW lastW : Nat) (s : State) :
    exec (.resize inW outW lastW) s = .next (completeBuffer (resizeOutcome inW outW lastW s) s) := rfl

/-! ### The words of RESIZE -/

theorem groupWord_eq {g : Group} (hv : g.value < 2 ^ g.width) (hw : g.width ≤ 16) :
    groupWord g = BitVec.ofNat 32 (g.width * 2 ^ 16 + g.value) := by
  have hv' : g.value < 2 ^ 16 := hv.trans_le (Nat.pow_le_pow_right two_pos hw)
  rw [groupWord, ← Nat.shiftLeft_add_eq_or_of_lt hv', Nat.shiftLeft_eq]

theorem inEntries_elementOf_getD {s : State} {i : Nat} (hi : i < s.inLen.toNat) :
    ((inEntries s).map elementOf).getD i 0 = (inEntry s i).toNat := by
  rw [List.getD_eq_getElem?_getD, List.getElem?_map, inEntries_getElem?, if_pos hi]
  rfl

theorem resizeWords_length {inW outW lastW : Nat} (hw : widthsLegal inW outW lastW = true) (s : State) :
    (resizeWords inW outW lastW s).length = ceilDiv (totalBits s.inLen.toNat inW lastW) outW := by
  obtain ⟨hi, -, ho, ho', -, hl⟩ := (widthsLegal_iff _ _ _).1 hw
  simp [resizeWords, regroup_eq_map _ hi ho ho' hl]

/-- R71, R86: word k is `(W_k << 16) | V_k`. -/
theorem resizeWords_getElem? {inW outW lastW k : Nat} (hw : widthsLegal inW outW lastW = true) (s : State)
    (hk : k < ceilDiv (totalBits s.inLen.toNat inW lastW) outW) :
    (resizeWords inW outW lastW s)[k]? =
      some (BitVec.ofNat 32 (groupWidth (totalBits s.inLen.toNat inW lastW) outW k * 2 ^ 16 +
        groupValue (fun i => (inEntry s i).toNat) s.inLen.toNat inW outW lastW k)) := by
  obtain ⟨hi, -, ho, ho', h1, hl⟩ := (widthsLegal_iff _ _ _).1 hw
  obtain ⟨-, hwidth, -⟩ := groupWidth_bounds ho hk
  have hgroup : (regroup ((inEntries s).map elementOf) inW outW lastW)[k]? =
      some ⟨groupValue (fun i => (inEntry s i).toNat) s.inLen.toNat inW outW lastW k,
        groupWidth (totalBits s.inLen.toNat inW lastW) outW k⟩ := by
    rw [regroup_eq_map _ hi ho ho' hl, List.length_map, inEntries_length, List.getElem?_map, List.getElem?_range hk,
      Option.map_some, groupValue_congr ho h1 hl (fun j hj => by rw [inEntries_elementOf_getD hj]) hk]
  have hvalue := regroup_value_lt ho ho' _ (List.mem_of_getElem? hgroup)
  rw [resizeWords, List.getElem?_map, hgroup, Option.map_some, groupWord_eq hvalue (hwidth.trans ho')]

end Sys2Proof.Machine
end

section
/-! PROOF. The obligations of 41_regrouper.md: Regroup and RESIZE. -/

namespace Sys2Proof.Claims

open Sys2Proof.Machine

/-- Settles O11: the regrouping is the list of the groups `⟨V_k, W_k⟩`. -/
theorem regroupClosedForm : Obligations.RegroupClosedForm := by
  intro elems inW outW lastW hi _ ho ho' _ hl
  rw [regroup_eq_map elems hi ho ho' hl]
  refine ⟨by rw [List.length_map, List.length_range], fun k hk => ?_⟩
  rw [List.getElem?_map, List.getElem?_range hk, Option.map_some]

/-- Settles O12: the two lists have the same stream, and the groups are cut from the stream. -/
theorem regroupReadsOnlyValidBits : Obligations.RegroupReadsOnlyValidBits := by
  intro es fs inW outW lastW hi _ ho ho' h1 hl hlen hbits
  have hstream : streamBits inW lastW es = streamBits inW lastW fs := by
    rw [streamBits_eq_map hi hl, streamBits_eq_map hi hl, ← hlen]
    exact List.map_congr_left fun n hn => streamBit_congr h1 hl hbits (List.mem_range.1 hn)
  rw [regroup_eq_chunks es inW lastW ho ho', regroup_eq_chunks fs inW lastW ho ho', hstream]

/-- Settles O13: the widths are those of the groups of T bits. -/
theorem regroupGroupSizes : Obligations.RegroupGroupSizes := by
  intro elems inW outW lastW hi _ ho ho' _ hl
  rw [regroup_eq_map elems hi ho ho' hl, List.length_map, List.length_range]
  refine ⟨fun k g hg => ?sizes, ?short⟩
  case sizes =>
    obtain ⟨hk, rfl⟩ := List.getElem?_eq_some_iff.1 hg
    simp only [List.length_map, List.length_range] at hk
    simp only [List.getElem_map, List.getElem_range]
    obtain ⟨hpos, hle, -⟩ := groupWidth_bounds ho hk
    exact ⟨hpos, hle, fun hnext => if_pos hnext⟩
  case short =>
    rw [← exists_groupWidth_lt_iff ho]
    simp

/-- Settles O14: `Regrouper.Fits` holds after any bits; at `outW = 17` the bit shifted in first leaves the accumulator,
and such a width is no legal one. -/
theorem accumulatorNeverWraps : Obligations.AccumulatorNeverWraps := by
  refine ⟨fun outW bits ho ho' hbits => ?invariant, by decide, fun inW outW lastW s ho => ?refused⟩
  case invariant =>
    have hfits := (Regrouper.start_fits ho).foldl ho' hbits
    refine ⟨hfits.room, hfits.acc, fun b hb => ?_, hfits.emitPartial⟩
    have hlt := hfits.shifted_lt hb
    have hpow : 2 ^ ((bits.foldl (shiftIn outW) Regrouper.start).nheld + 1) ≤ 2 ^ 16 :=
      Nat.pow_le_pow_right two_pos (hfits.room.trans_le ho')
    rw [shiftLeft_one_or_bit hb]
    exact ⟨hlt, Nat.mod_eq_of_lt (hlt.trans_le hpow)⟩
  case refused =>
    have hwidths : ¬ widthsLegal inW outW lastW = true := by
      rw [widthsLegal_iff]
      omega
    rw [exec_resize, resizeOutcome_of_badWidth hwidths]
    exact ⟨_, rfl, rfl, rfl⟩

/-- Settles O15: the word's row is R63's; the checks run in R90's order; past them the result is `resizeWords`. -/
theorem resizeCommand : Obligations.ResizeCommand := by
  refine ⟨fun w hw => ?word, fun inW outW lastW s hcfg => ⟨_, exec_resize inW outW lastW s, ?outcome⟩⟩
  case word =>
    obtain ⟨hrows, -, -⟩ := opcodeMapSelectsTheCommand w
    exact hrows (_, _, _) (by simp [opcodeMap]) hw
  case outcome =>
    split
    case isTrue hwidths =>
      rw [resizeOutcome_of_badWidth (mt (widthsLegal_iff ..).1 hwidths)]
      exact raiseError_bufferFailed ⟨.badWidth, none⟩ s
    case isFalse hwidths =>
    have hw : widthsLegal inW outW lastW = true := (widthsLegal_iff ..).2 (not_not.1 hwidths)
    have hlen := resizeWords_length hw s
    split
    case isTrue hL =>
      rw [resizeOutcome_of_inputLength hw hL]
      exact raiseError_bufferFailed ⟨.inputLength, none⟩ s
    case isFalse hL =>
    rw [resizeOutcome_of_inputFits hw (not_lt.1 hL)]
    split
    case isTrue hG =>
      rw [checkCapacity_error (hlen ▸ hG)]
      exact raiseError_bufferFailed ⟨.outputCapacity, none⟩ s
    case isFalse hG =>
      have hdepth := outDepth_le_of_legal hcfg
      rw [checkCapacity_ok (hlen ▸ not_lt.1 hG)]
      exact commitBuffer_bufferDone hlen (by omega) fun k hk => resizeWords_getElem? hw s hk

/-- Settles O16: no element shifts no bit, and an empty result passes every check and writes no entry. -/
theorem resizeOfEmptyInput : Obligations.ResizeOfEmptyInput := by
  intro inW outW lastW s hL hi hi' ho ho' h1 hl
  have hw : widthsLegal inW outW lastW = true := (widthsLegal_iff _ _ _).2 ⟨hi, hi', ho, ho', h1, hl⟩
  have hwords : resizeWords inW outW lastW s = [] := by
    rw [← List.length_eq_zero_iff, resizeWords_length hw, hL]
    exact Nat.div_eq_of_lt (by simp [totalBits]; omega)
  have houtcome : resizeOutcome inW outW lastW s = .ok [] := by
    rw [resizeOutcome_of_inputFits hw (by simp [hL]), hwords, checkCapacity_ok (Nat.zero_le _)]
  rw [exec_resize, houtcome]
  exact ⟨rfl, _, rfl, rfl, rfl, rfl, fun _ => rfl⟩

end Sys2Proof.Claims
end

section
/-! SUPPORT. The ROM under WF_ROM by its blocks (42_rom.md R92 to R99): W4 codepoint by codepoint, the block that holds a
codepoint, and the two lookups as the two directions of that one relation. -/

namespace Sys2Proof.Machine

/-! ### W2 and W4 -/

/-- Two blocks of one size lie apart exactly when no codepoint of one is a codepoint of the other. -/
theorem blocksApart_iff {size : Nat} (hsize : 1 ≤ size) (a b : Nat) :
    (a + size ≤ b ∨ b + size ≤ a) ↔ ∀ o p, o < size → p < size → a + o ≠ b + p := by
  constructor
  · intro hapart o p ho hp
    omega
  · intro hdistinct
    by_contra hoverlap
    rcases Nat.le_total a b with hab | hba
    · exact hdistinct (b - a) 0 (by omega) (by omega) (by omega)
    · exact hdistinct 0 (a - b) (by omega) (by omega) (by omega)

/-- W4, said in the model block by block in order (log 13), is W4 codepoint by codepoint over any two blocks (R94). -/
theorem pairwise_blocksApart_iff {size : Nat} (hsize : 1 ≤ size) (starts : List Nat) :
    starts.Pairwise (fun a b => a + size ≤ b ∨ b + size ≤ a) ↔
      ∀ i j a b : Nat, i ≠ j → starts[i]? = some a → starts[j]? = some b →
        ∀ o p, o < size → p < size → a + o ≠ b + p := by
  simp only [blocksApart_iff hsize]
  rw [List.pairwise_iff_getElem]
  constructor
  · intro hordered i j a b hij ha hb o p ho hp
    obtain ⟨hi, rfl⟩ := List.getElem?_eq_some_iff.1 ha
    obtain ⟨hj, rfl⟩ := List.getElem?_eq_some_iff.1 hb
    rcases Nat.lt_or_gt_of_ne hij with hlt | hgt
    · exact hordered i j hi hj hlt o p ho hp
    · exact (hordered j i hj hi hgt p o hp ho).symm
  · intro hany i j hi hj hij
    exact hany i j _ _ hij.ne (List.getElem?_eq_getElem hi) (List.getElem?_eq_getElem hj)

theorem blockSize_pos_of_romWf {c : Config} (h : romWf c = true) : 1 ≤ c.blockSize := by
  obtain ⟨-, ⟨hpos, -, -⟩, -, -⟩ := (romWf_iff c).1 h
  exact hpos

/-- "So BLOCK_SIZE is a power of two from 1 to 128" (R94): it divides DOM_1. -/
theorem blockSize_eq_two_pow_of_romWf {c : Config} (h : romWf c = true) : ∃ e, e ≤ 7 ∧ c.blockSize = 2 ^ e := by
  obtain ⟨-, ⟨-, -, hcovers⟩, -, -⟩ := (romWf_iff c).1 h
  have hdvd : c.blockSize ∣ 2 ^ 7 := Dvd.intro_left _ hcovers
  exact (Nat.dvd_prime_pow Nat.prime_two).1 hdvd

/-! ### The blocks of a tier -/

@[simp] theorem blockStarts_zero (c : Config) : blockStarts c 0 = c.blockStart0 := rfl

@[simp] theorem blockStarts_one (c : Config) : blockStarts c 1 = c.blockStart1 := rfl

theorem blockStarts_eq_ite {t : Nat} (ht : t < 2) (c : Config) :
    blockStarts c t = if t = 0 then c.blockStart0 else c.blockStart1 := by
  interval_cases t <;> rfl

/-- The ROM has two tiers (R92). -/
theorem tier_lt_two_of_blockStarts {c : Config} {t i b : Nat} (h : (blockStarts c t)[i]? = some b) : t < 2 := by
  match t with
  | 0 => decide
  | 1 => decide
  | t + 2 => simp [blockStarts] at h

/-- The values of both tiers fit 15 bits (R92). -/
theorem domainSize_le (t : Nat) : domainSize t ≤ 2 ^ 15 := Nat.pow_le_pow_right two_pos (Nat.sub_le 15 (8 * t))

/-- W2 for either tier (R94). -/
theorem blockStarts_length_mul {c : Config} (h : romWf c = true) {t : Nat} (ht : t < 2) :
    (blockStarts c t).length * c.blockSize = domainSize t := by
  obtain ⟨-, ⟨-, hcovers0, hcovers1⟩, -, -⟩ := (romWf_iff c).1 h
  interval_cases t
  · exact hcovers0
  · exact hcovers1

/-- Block i of tier t has its place among the blocks of both tiers: tier 1's follow tier 0's. -/
theorem romStarts_getElem? {c : Config} {t i b : Nat} (h : (blockStarts c t)[i]? = some b) :
    (c.blockStart0 ++ c.blockStart1)[t * c.blockStart0.length + i]? = some b := by
  have ht := tier_lt_two_of_blockStarts h
  interval_cases t
  · have hi : i < c.blockStart0.length := (List.getElem?_eq_some_iff.1 h).1
    simpa [List.getElem?_append_left hi] using h
  · simpa [List.getElem?_append_right] using h

/-- Two blocks with one place among the blocks of both tiers are one block: tier 0 ends before tier 1 begins. -/
theorem romPlace_injective {c : Config} {t i b t' i' b' : Nat} (h : (blockStarts c t)[i]? = some b)
    (h' : (blockStarts c t')[i']? = some b')
    (hplace : t * c.blockStart0.length + i = t' * c.blockStart0.length + i') : t = t' ∧ i = i' := by
  have hzero : t = 0 → i < c.blockStart0.length := by rintro rfl; exact (List.getElem?_eq_some_iff.1 h).1
  have hzero' : t' = 0 → i' < c.blockStart0.length := by rintro rfl; exact (List.getElem?_eq_some_iff.1 h').1
  have ht := tier_lt_two_of_blockStarts h
  have ht' := tier_lt_two_of_blockStarts h'
  interval_cases t <;> interval_cases t' <;> omega

/-! ### The block that holds a codepoint -/

/-- Block `i` of tier `t` starts at `b` and holds the codepoint `cp` (R93, R97). -/
structure BlockHolds (c : Config) (t i b cp : Nat) : Prop where
  start : (blockStarts c t)[i]? = some b
  le    : b ≤ cp
  lt    : cp < b + c.blockSize

theorem BlockHolds.tier_lt_two {c : Config} {t i b cp : Nat} (h : BlockHolds c t i b cp) : t < 2 :=
  tier_lt_two_of_blockStarts h.start

/-- The codepoint's offset in its block. -/
theorem BlockHolds.offset_lt {c : Config} {t i b cp : Nat} (h : BlockHolds c t i b cp) : cp - b < c.blockSize :=
  Nat.sub_lt_left_of_lt_add h.le h.lt

theorem BlockHolds.mem {c : Config} {t i b cp : Nat} (h : BlockHolds c t i b cp) :
    b ∈ c.blockStart0 ++ c.blockStart1 :=
  List.mem_of_getElem? (romStarts_getElem? h.start)

/-- W3: a codepoint of a block is a single code unit (R94). -/
theorem BlockHolds.singleUnit {c : Config} (hwf : romWf c = true) {t i b cp : Nat} (h : BlockHolds c t i b cp) :
    cp ≤ 0xFFFF ∧ (cp < 0xD800 ∨ 0xDFFF < cp) := by
  obtain ⟨-, -, hfit, -⟩ := (romWf_iff c).1 hwf
  have hunit := hfit b h.mem (cp - b) h.offset_lt
  rwa [Nat.add_sub_cancel' h.le, singleUnit_iff] at hunit

/-- W4: one block at most holds a codepoint (R94). -/
theorem BlockHolds.unique {c : Config} (hwf : romWf c = true) {t i b t' i' b' cp : Nat}
    (h : BlockHolds c t i b cp) (h' : BlockHolds c t' i' b' cp) : t = t' ∧ i = i' ∧ b = b' := by
  obtain ⟨-, -, -, hapart⟩ := (romWf_iff c).1 hwf
  have hdistinct := (pairwise_blocksApart_iff (blockSize_pos_of_romWf hwf) _).1 hapart
  have hplace : t * c.blockStart0.length + i = t' * c.blockStart0.length + i' := by
    by_contra hne
    refine hdistinct _ _ b b' hne (romStarts_getElem? h.start) (romStarts_getElem? h'.start)
      (cp - b) (cp - b') h.offset_lt h'.offset_lt ?_
    rw [Nat.add_sub_cancel' h.le, Nat.add_sub_cancel' h'.le]
  obtain ⟨rfl, rfl⟩ := romPlace_injective h.start h'.start hplace
  exact ⟨rfl, rfl, Option.some.inj (h.start.symm.trans h'.start)⟩

/-! ### The two lookups by blocks -/

/-- What the reverse lookup answers is the place of a block that holds the codepoint (R97). -/
theorem exists_blockHolds_of_rev {c : Config} {cp t v : Nat} (h : rev c cp = some (t, v)) :
    ∃ i b, BlockHolds c t i b cp ∧ v = i * c.blockSize + (cp - b) := by
  obtain ⟨rfl, hfound⟩ | ⟨rfl, -, hfound⟩ := (rev_eq_some_iff c cp t v).1 h
  all_goals
    obtain ⟨i, b, hb, hle, hlt, hv, -⟩ := (revInBlocks_eq_some_iff _ _ _ _ _).1 hfound
    exact ⟨i, b, ⟨hb, hle, hlt⟩, by rw [hv, Nat.zero_add]⟩

/-- Under WF_ROM the order of the search does not matter: the codepoint's one block decides the answer (R97, R99). -/
theorem rev_eq_some_iff_blockHolds {c : Config} (hwf : romWf c = true) (cp t v : Nat) :
    rev c cp = some (t, v) ↔ ∃ i b, BlockHolds c t i b cp ∧ v = i * c.blockSize + (cp - b) := by
  refine ⟨exists_blockHolds_of_rev, ?_⟩
  rintro ⟨i, b, hheld, rfl⟩
  cases hrev : rev c cp with
  | none => exact absurd ⟨hheld.le, hheld.lt⟩ ((rev_eq_none_iff c cp).1 hrev b hheld.mem)
  | some tv =>
    obtain ⟨i', b', hheld', hv'⟩ := exists_blockHolds_of_rev hrev
    obtain ⟨ht, rfl, rfl⟩ := hheld.unique hwf hheld'
    exact congrArg some (Prod.ext ht.symm hv')

theorem rev_of_blockHolds {c : Config} (hwf : romWf c = true) {cp t i b : Nat} (h : BlockHolds c t i b cp) :
    rev c cp = some (t, i * c.blockSize + (cp - b)) :=
  (rev_eq_some_iff_blockHolds hwf _ _ _).2 ⟨i, b, h, rfl⟩

/-- No block holds a codepoint that is no single code unit (R99, R102). -/
theorem rev_eq_none_of_not_singleUnit {c : Config} (hwf : romWf c = true) {cp : Nat}
    (h : ¬ (cp ≤ 0xFFFF ∧ (cp < 0xD800 ∨ 0xDFFF < cp))) : rev c cp = none := by
  cases hrev : rev c cp with
  | none => rfl
  | some tv =>
    obtain ⟨i, b, hheld, -⟩ := exists_blockHolds_of_rev hrev
    exact absurd (hheld.singleUnit hwf) h

/-- The forward lookup has no answer outside the tiers and their domains (R96). -/
theorem fwd_eq_none {c : Config} {t v : Nat} (h : t < 2 → domainSize t ≤ v) : fwd c t v = none := by
  refine Option.eq_none_iff_forall_ne_some.2 fun cp hcp => ?_
  obtain ⟨ht, hv, -⟩ := (fwd_eq_some_iff c t v cp).1 hcp
  exact absurd (h ht) (not_le.2 hv)

/-- A value is in its tier's domain exactly when its block exists (R92, W2 of R94). -/
theorem div_lt_length_iff {c : Config} (hwf : romWf c = true) {t : Nat} (ht : t < 2) (v : Nat) :
    v / c.blockSize < (blockStarts c t).length ↔ v < domainSize t := by
  rw [Nat.div_lt_iff_lt_mul (blockSize_pos_of_romWf hwf), blockStarts_length_mul hwf ht]

/-- Every value of a tier's domain has its codepoint (R96). -/
theorem exists_fwd_of_lt {c : Config} (hwf : romWf c = true) {t v : Nat} (ht : t < 2) (hv : v < domainSize t) :
    ∃ b, (blockStarts c t)[v / c.blockSize]? = some b ∧ fwd c t v = some (b + v % c.blockSize) := by
  have hb := List.getElem?_eq_getElem ((div_lt_length_iff hwf ht v).2 hv)
  exact ⟨_, hb, (fwd_eq_some_iff _ _ _ _).2 ⟨ht, hv, _, hb, rfl⟩⟩

/-- A value's codepoint is the one at the value's offset in the value's block (R96). -/
theorem fwd_eq_some_iff_blockHolds {c : Config} (hwf : romWf c = true) (cp t v : Nat) :
    fwd c t v = some cp ↔ ∃ i b, BlockHolds c t i b cp ∧ v = i * c.blockSize + (cp - b) := by
  have hpos := blockSize_pos_of_romWf hwf
  rw [fwd_eq_some_iff]
  constructor
  · rintro ⟨-, -, b, hb, rfl⟩
    refine ⟨v / c.blockSize, b, ⟨hb, Nat.le_add_right _ _, Nat.add_lt_add_left (Nat.mod_lt v hpos) b⟩, ?_⟩
    rw [Nat.add_sub_cancel_left, Nat.div_add_mod']
  · rintro ⟨i, b, hheld, rfl⟩
    have hoffset := hheld.offset_lt
    have hdiv : (i * c.blockSize + (cp - b)) / c.blockSize = i := by
      rw [Nat.mul_comm, Nat.mul_add_div hpos, Nat.div_eq_of_lt hoffset, Nat.add_zero]
    have hcp : cp = b + (i * c.blockSize + (cp - b)) % c.blockSize := by
      rw [Nat.mul_add_mod_of_lt hoffset, Nat.add_sub_cancel' hheld.le]
    have hi : i < (blockStarts c t).length := (List.getElem?_eq_some_iff.1 hheld.start).1
    refine ⟨hheld.tier_lt_two, ?_, b, hdiv.symm ▸ hheld.start, hcp⟩
    rwa [← div_lt_length_iff hwf hheld.tier_lt_two, hdiv]

/-- The two lookups are one relation read in two directions (R98). -/
theorem fwd_eq_some_iff_rev {c : Config} (hwf : romWf c = true) (cp t v : Nat) :
    fwd c t v = some cp ↔ rev c cp = some (t, v) :=
  (fwd_eq_some_iff_blockHolds hwf cp t v).trans (rev_eq_some_iff_blockHolds hwf cp t v).symm

theorem fwd_singleUnit {c : Config} (hwf : romWf c = true) {t v cp : Nat} (h : fwd c t v = some cp) :
    cp ≤ 0xFFFF ∧ (cp < 0xD800 ∨ 0xDFFF < cp) := by
  obtain ⟨i, b, hheld, -⟩ := (fwd_eq_some_iff_blockHolds hwf cp t v).1 h
  exact hheld.singleUnit hwf

/-- Every value that the reverse lookup answers is in its tier's domain (R92, R97). -/
theorem rev_value_lt {c : Config} (hwf : romWf c = true) {cp t v : Nat} (h : rev c cp = some (t, v)) :
    v < domainSize t := by
  obtain ⟨-, hv, -⟩ := (fwd_eq_some_iff c t v cp).1 ((fwd_eq_some_iff_rev hwf cp t v).2 h)
  exact hv

/-! ### The number of codepoints of a tier -/

/-- The codepoints that Rev maps to tier t are the codepoints of tier t's values (R98, R99). -/
theorem mem_codepoints_of_tier {c : Config} (hwf : romWf c = true) (t cp : Nat) :
    cp ∈ ((Finset.range 0x10000).filter fun cp => (rev c cp).map Prod.fst = some t) ↔
      ∃ v, fwd c t v = some cp := by
  simp only [Finset.mem_filter, Finset.mem_range, Option.map_eq_some_iff, Prod.exists,
    fwd_eq_some_iff_rev hwf]
  constructor
  · rintro ⟨-, tier, v, hrev, rfl⟩
    exact ⟨v, hrev⟩
  · rintro ⟨v, hrev⟩
    obtain ⟨hfit, -⟩ := fwd_singleUnit hwf ((fwd_eq_some_iff_rev hwf cp t v).2 hrev)
    exact ⟨Nat.lt_succ_of_le hfit, t, v, hrev, rfl⟩

/-- A tier has as many codepoints as its domain has values: the lookups are the bijection (R99). -/
theorem card_codepoints_of_tier {c : Config} (hwf : romWf c = true) {t : Nat} (ht : t < 2) :
    ((Finset.range 0x10000).filter fun cp => (rev c cp).map Prod.fst = some t).card = domainSize t := by
  rw [← Finset.card_range (domainSize t)]
  have hcodepoint {v : Nat} (hv : v ∈ Finset.range (domainSize t)) : ∃ cp, fwd c t v = some cp := by
    obtain ⟨b, -, hfwd⟩ := exists_fwd_of_lt hwf ht (Finset.mem_range.1 hv)
    exact ⟨_, hfwd⟩
  refine Finset.card_nbij' (fun cp => ((rev c cp).map Prod.snd).getD 0) (fun v => (fwd c t v).getD 0)
    (fun cp hcp => ?intoDomain) (fun v hv => ?intoTier) (fun cp hcp => ?fwdOfRev) (fun v hv => ?revOfFwd)
  case intoDomain =>
    obtain ⟨v, hfwd⟩ := (mem_codepoints_of_tier hwf t cp).1 hcp
    have hrev := (fwd_eq_some_iff_rev hwf cp t v).1 hfwd
    simpa [hrev] using rev_value_lt hwf hrev
  case intoTier =>
    obtain ⟨cp, hfwd⟩ := hcodepoint hv
    exact (mem_codepoints_of_tier hwf t _).2 ⟨v, by simp [hfwd]⟩
  case fwdOfRev =>
    obtain ⟨v, hfwd⟩ := (mem_codepoints_of_tier hwf t cp).1 hcp
    simp [hfwd, (fwd_eq_some_iff_rev hwf cp t v).1 hfwd]
  case revOfFwd =>
    obtain ⟨cp, hfwd⟩ := hcodepoint hv
    simp [hfwd, (fwd_eq_some_iff_rev hwf cp t v).1 hfwd]

end Sys2Proof.Machine
end

section
/-! SUPPORT. FWD and REV outcome by outcome (42_rom.md R101, R102), the words of LKRES (30_encoding.md R72), and the
completion of a lookup command in the terms of `LookupDone` and `LookupFailed` (R77, R121). -/

namespace Sys2Proof.Machine

open Sys2Proof.Claims

/-! ### The word of a row -/

/-- A word that matches a row of R63 is decoded to that row's command. -/
theorem decodeWord_of_opcodeMap {w : Word} {mask value : Nat} {i : Instr} (hrow : (mask, value, i) ∈ opcodeMap w.toNat)
    (hw : w.toNat &&& mask = value) : decodeWord w = .ok i := by
  obtain ⟨hrows, -, -⟩ := opcodeMapSelectsTheCommand w
  exact hrows _ hrow hw

/-! ### The completion of a lookup command -/

theorem raiseError_lookupFailed (e : Err) (s : State) :
    LookupFailed s (raiseError .lookup ⟨e, none⟩ s) (errCodeOf e) := rfl

theorem commitLookup_lookupDone (r : Word) (s : State) : LookupDone s (commitLookup r s) r := rfl

/-! ### The words of LKRES -/

/-- HIT lies above every field of LKRES. -/
theorem hit_or_eq_add {n : Nat} (h : n < 2 ^ 31) : 1 <<< 31 ||| n = 2 ^ 31 + n :=
  (Nat.shiftLeft_add_eq_or_of_lt h 1).symm

theorem fwdWord_eq {cp : Nat} (h : cp ≤ 0xFFFF) : fwdWord cp = BitVec.ofNat 32 (2 ^ 31 + cp) := by
  rw [fwdWord, hit_or_eq_add (by omega)]

theorem revWord_eq {t v : Nat} (ht : t < 2) (hv : v < 2 ^ 15) :
    revWord t v = BitVec.ofNat 32 (2 ^ 31 + t * 2 ^ 16 + v) := by
  have hfields : t <<< 16 ||| v = t * 2 ^ 16 + v := by
    rw [← Nat.shiftLeft_add_eq_or_of_lt (hv.trans (by decide)), Nat.shiftLeft_eq]
  rw [revWord, Nat.or_assoc, hfields, hit_or_eq_add (by omega), Nat.add_assoc]

/-! ### The outcome of FWD -/

theorem exec_fwd (tier value : Nat) (s : State) :
    exec (.fwd tier value) s = .next (completeLookup (fwdOutcome tier value s.cfg) s) := rfl

theorem fwdOutcome_of_tier {tier : Nat} (h : 2 ≤ tier) (value : Nat) (c : Config) :
    fwdOutcome tier value c = .error ⟨.unrecognizedTier, none⟩ := if_pos h

theorem fwdOutcome_of_none {tier value : Nat} {c : Config} (ht : tier < 2) (h : fwd c tier value = none) :
    fwdOutcome tier value c = .error ⟨.unencodableValue, none⟩ := by
  rw [fwdOutcome, if_neg (not_le.2 ht), h]

theorem fwdOutcome_of_some {tier value cp : Nat} {c : Config} (ht : tier < 2) (h : fwd c tier value = some cp) :
    fwdOutcome tier value c = .ok (fwdWord cp) := by
  rw [fwdOutcome, if_neg (not_le.2 ht), h]

/-! ### The outcome of REV -/

theorem exec_rev (cp : Nat) (s : State) : exec (.rev cp) s = .next (completeLookup (revOutcome cp s.cfg) s) := rfl

theorem revOutcome_of_width {cp : Nat} (h : 0xFFFF < cp) (c : Config) :
    revOutcome cp c = .error ⟨.invalidCharacterWidth, none⟩ := if_pos h

theorem revOutcome_of_none {cp : Nat} {c : Config} (hcp : cp ≤ 0xFFFF) (h : rev c cp = none) :
    revOutcome cp c = .error ⟨.invalidCharacter, none⟩ := by
  rw [revOutcome, if_neg (not_lt.2 hcp), h]

theorem revOutcome_of_some {cp t v : Nat} {c : Config} (hcp : cp ≤ 0xFFFF) (h : rev c cp = some (t, v)) :
    revOutcome cp c = .ok (revWord t v) := by
  rw [revOutcome, if_neg (not_lt.2 hcp), h]

/-- REV of a single code unit in neither tier (R102). -/
theorem rev_lookupFailed {cp : Nat} {s : State} (hcp : cp ≤ 0xFFFF) (h : rev s.cfg cp = none) :
    LookupFailed s (completeLookup (revOutcome cp s.cfg) s) 0x6 := by
  rw [revOutcome_of_none hcp h]
  exact raiseError_lookupFailed .invalidCharacter s

/-- REV of a codepoint that a block holds: the tier and the value in their fields (R72, R102). -/
theorem rev_lookupDone {s : State} (hwf : romWf s.cfg = true) {cp t i b : Nat} (h : BlockHolds s.cfg t i b cp) :
    LookupDone s (completeLookup (revOutcome cp s.cfg) s)
      (BitVec.ofNat 32 (2 ^ 31 + t * 2 ^ 16 + (i * s.cfg.blockSize + (cp - b)))) := by
  obtain ⟨hcp, -⟩ := h.singleUnit hwf
  have hrev := rev_of_blockHolds hwf h
  have hvalue := (rev_value_lt hwf hrev).trans_le (domainSize_le t)
  rw [revOutcome_of_some hcp hrev, revWord_eq h.tier_lt_two hvalue]
  exact commitLookup_lookupDone _ s

end Sys2Proof.Machine
end

section
/-! PROOF. The obligations of 42_rom.md: WF_ROM, the two lookups, FWD and REV. -/

namespace Sys2Proof.Claims

open Sys2Proof.Machine

/-- Settles O17: the model's check of W4 goes over pairs of blocks in order; `pairwise_blocksApart_iff` makes it the
rule's, under W2's `1 ≤ BLOCK_SIZE`. -/
theorem wfRomIsItsFourConditions : Obligations.WfRomIsItsFourConditions := by
  refine fun c => ⟨?_, blockSize_eq_two_pow_of_romWf⟩
  have hunit (cp : Nat) : singleUnit cp = true ↔ cp ≤ 0xFFFF ∧ ¬ (0xD800 ≤ cp ∧ cp ≤ 0xDFFF) := by
    rw [singleUnit_iff, not_and_or, not_le, not_le]
  rw [romWf_iff]
  simp only [hunit]
  refine and_congr_right fun _ => and_congr_right fun ⟨hpos, _, _⟩ => and_congr_right fun _ => ?_
  exact pairwise_blocksApart_iff hpos _

/-- Settles O19: outside the domains there is no answer; in a domain W2 gives the block and W3 bounds the codepoint. -/
theorem fwdOnEveryDomain : Obligations.FwdOnEveryDomain := by
  refine fun c t v hwf => ⟨fun ht => fwd_eq_none fun ht' => absurd ht (not_le.2 ht'),
    fun _ hv => fwd_eq_none fun _ => hv, fun ht hv => ?inDomain⟩
  case inDomain =>
    obtain ⟨b, hb, hfwd⟩ := exists_fwd_of_lt hwf ht hv
    rw [← blockStarts_eq_ite ht]
    exact ⟨b, hb, hfwd, (fwd_singleUnit hwf hfwd).1⟩

/-- Settles O20: Fwd is defined on every value of the domains, and `fwd_eq_some_iff_rev` turns it into Rev and back. -/
theorem fwdAndRevAreInverse : Obligations.FwdAndRevAreInverse := by
  refine fun c hwf => ⟨fun t v ht hv => ?revOfFwd, fun cp t v => (fwd_eq_some_iff_rev hwf cp t v).2⟩
  case revOfFwd =>
    obtain ⟨b, -, hfwd⟩ := exists_fwd_of_lt hwf ht hv
    exact ⟨_, hfwd, (fwd_eq_some_iff_rev hwf _ t v).1 hfwd⟩

/-- Settles O21: a shared codepoint would have two answers of Rev, and the lookups count the codepoints of a tier. -/
theorem tiersShareNoCodepoint : Obligations.TiersShareNoCodepoint := by
  refine fun c hwf => ⟨fun v u cp h0 h1 => ?disjoint, card_codepoints_of_tier hwf (by decide),
    card_codepoints_of_tier hwf (by decide), fun cp hcp => rev_eq_none_of_not_singleUnit hwf (by omega)⟩
  case disjoint =>
    rw [fwd_eq_some_iff_rev hwf] at h0 h1
    simpa using h0.symm.trans h1

/-- Settles O22: the word's row is R63's; the tier is checked first, and under WF_ROM only tier 1 has a 15-bit value
outside its domain. -/
theorem fwdCommand : Obligations.FwdCommand := by
  refine ⟨fun w hw => ?word, fun tier value s hcfg _ hvalue => ⟨_, exec_fwd tier value s, ?outcome⟩⟩
  case word => exact decodeWord_of_opcodeMap (by simp [opcodeMap]) hw
  case outcome =>
    have hwf := romWf_of_legal hcfg
    split
    case isTrue htier =>
      rw [fwdOutcome_of_tier htier]
      exact raiseError_lookupFailed .unrecognizedTier s
    case isFalse htier =>
    have ht : tier < 2 := not_le.1 htier
    split
    case isTrue hrange =>
      obtain ⟨rfl, hlarge⟩ := hrange
      rw [fwdOutcome_of_none ht (fwd_eq_none fun _ => hlarge)]
      exact raiseError_lookupFailed .unencodableValue s
    case isFalse hrange =>
      have hdomain : value < domainSize tier := by
        interval_cases tier
        · exact hvalue
        · exact not_le.1 fun hlarge => hrange ⟨rfl, hlarge⟩
      obtain ⟨b, hb, hfwd⟩ := exists_fwd_of_lt hwf ht hdomain
      rw [← blockStarts_eq_ite ht, fwdOutcome_of_some ht hfwd, fwdWord_eq (fwd_singleUnit hwf hfwd).1]
      exact ⟨b, hb, commitLookup_lookupDone _ s⟩

/-- Settles O23: the word's row is R63's; the width is checked first, and then the codepoint's one block decides, which
no surrogate has. -/
theorem revCommand : Obligations.RevCommand := by
  refine ⟨fun w hw => ?word, fun cp s hcfg _ => ⟨_, exec_rev cp s, fun hwide => ?width, fun hcp hnone => ?noBlock,
    fun hlow hhigh => ?surrogate, fun i b hb hle hlt => ?tier0, fun i b hb hle hlt => ?tier1⟩⟩
  case word => exact decodeWord_of_opcodeMap (by simp [opcodeMap]) hw
  case width =>
    rw [revOutcome_of_width hwide]
    exact raiseError_lookupFailed .invalidCharacterWidth s
  case noBlock => exact rev_lookupFailed hcp ((rev_eq_none_iff s.cfg cp).2 hnone)
  case surrogate =>
    exact rev_lookupFailed (by omega) (rev_eq_none_of_not_singleUnit (romWf_of_legal hcfg) (by omega))
  case tier0 => exact rev_lookupDone (t := 0) (romWf_of_legal hcfg) ⟨hb, hle, hlt⟩
  case tier1 => exact rev_lookupDone (t := 1) (romWf_of_legal hcfg) ⟨hb, hle, hlt⟩

end Sys2Proof.Claims
end

section
/-! SUPPORT. ENCODE (43_encode.md R103 to R107): a group of any width padded and placed in its tier, the codepoints of
the stream of bytes, and the outcome of the command. -/

namespace Sys2Proof.Machine

open Sys2Proof.Claims

/-! ### A group, padded (R104, R105) -/

/-- The tier of a group of width w (R105). -/
def groupTier (w : Nat) : Nat := if w ≤ 7 then 1 else 0

/-- The number of 1-bits that fill a group of width w up to the bits of its tier (R104). -/
def groupPad (w : Nat) : Nat := 15 - 8 * groupTier w - w

/-- A group's value followed by its 1-bits (R104). -/
def paddedValue (g : Group) : Nat := g.value * 2 ^ groupPad g.width + (2 ^ groupPad g.width - 1)

theorem groupTier_of_le {w : Nat} (h : w ≤ 7) : groupTier w = 1 := if_pos h

theorem groupTier_of_gt {w : Nat} (h : 7 < w) : groupTier w = 0 := if_neg (not_le.2 h)

theorem groupTier_lt_two (w : Nat) : groupTier w < 2 := by
  unfold groupTier
  split <;> decide

/-- Padded, a group has as many bits as a value of its tier. -/
theorem add_groupPad {w : Nat} (h : w ≤ 15) : w + groupPad w = 15 - 8 * groupTier w := by
  unfold groupPad groupTier
  split <;> omega

/-- The modulus of R104 leaves as many bits as the tier asks for. -/
theorem padBits_eq_groupPad {w : Nat} (h1 : 1 ≤ w) (h : w ≤ 15) : padBits w = groupPad w := by
  unfold padBits groupPad groupTier
  split <;> omega

theorem shiftLeft_or_ones (v p : Nat) : v <<< p ||| (2 ^ p - 1) = v * 2 ^ p + (2 ^ p - 1) := by
  rw [← Nat.shiftLeft_add_eq_or_of_lt (Nat.sub_one_lt (Nat.two_pow_pos p).ne'), Nat.shiftLeft_eq]

/-- R104, R105 as one table: a full group is one with no padding. -/
theorem tierAndValue_eq {g : Group} (h1 : 1 ≤ g.width) (h : g.width ≤ 15) :
    tierAndValue g = (groupTier g.width, paddedValue g) := by
  unfold tierAndValue
  split
  case isTrue hfull => simp [paddedValue, groupPad, groupTier, hfull]
  case isFalse =>
    have htier : (15 - (g.width + groupPad g.width)) / 8 = groupTier g.width := by
      have hlt := groupTier_lt_two g.width
      rw [add_groupPad h]
      omega
    simp only [padBits_eq_groupPad h1 h, htier, shiftLeft_or_ones, paddedValue]

/-- R106: the padded value lies in its tier's domain. -/
theorem paddedValue_lt {g : Group} (h : g.width ≤ 15) (hv : g.value < 2 ^ g.width) :
    paddedValue g < domainSize (groupTier g.width) := by
  have hpow := Nat.two_pow_pos (groupPad g.width)
  calc paddedValue g < (g.value + 1) * 2 ^ groupPad g.width := by rw [paddedValue, Nat.succ_mul]; omega
    _ ≤ 2 ^ g.width * 2 ^ groupPad g.width := Nat.mul_le_mul_right _ hv
    _ = domainSize (groupTier g.width) := by rw [← pow_add, add_groupPad h, domainSize]

/-- R106: under WF_ROM every padded group has its codepoint. -/
theorem exists_fwd_paddedValue {c : Config} (hwf : romWf c = true) {g : Group} (h : g.width ≤ 15)
    (hv : g.value < 2 ^ g.width) : ∃ cp, fwd c (groupTier g.width) (paddedValue g) = some cp := by
  obtain ⟨b, -, hfwd⟩ := exists_fwd_of_lt hwf (groupTier_lt_two g.width) (paddedValue_lt h hv)
  exact ⟨_, hfwd⟩

/-- R103, steps (2) to (4): a group that is full or the last is encoded as its codepoint. -/
theorem encodeGroup_of_fwd {c : Config} {k cp : Nat} {g : Group} {last : Bool} (h1 : 1 ≤ g.width) (h : g.width ≤ 15)
    (hlast : g.width ≠ 15 → last = true) (hfwd : fwd c (groupTier g.width) (paddedValue g) = some cp) :
    encodeGroup c k g last = .ok cp := by
  have hstream : (!last && g.width != 15) = false := by
    by_cases hfull : g.width = 15
    · simp [hfull]
    · simp [hlast hfull]
  have htier : ¬ groupTier g.width ≥ 2 := not_le.2 (groupTier_lt_two g.width)
  simp [encodeGroup, hstream, tierAndValue_eq h1 h, -ge_iff_le, htier, hfwd]

/-! ### Numbers read off a stream of bits (R86) -/

theorem bitsValue_congr {f f' : Nat → Nat} {start w : Nat} (h : ∀ m, m < w → f (start + m) = f' (start + m)) :
    bitsValue f start w = bitsValue f' start w :=
  Finset.sum_congr rfl fun m hm => by rw [h m (Finset.mem_range.1 hm)]

/-- The bits that follow shift those before them up. -/
theorem bitsValue_add (f : Nat → Nat) (start w p : Nat) :
    bitsValue f start (w + p) = bitsValue f start w * 2 ^ p + bitsValue f (start + w) p := by
  unfold bitsValue
  rw [Finset.sum_range_add, Finset.sum_mul]
  congr 1
  · refine Finset.sum_congr rfl fun m hm => ?_
    have hm' : m < w := Finset.mem_range.1 hm
    rw [mul_assoc, ← pow_add, show w + p - 1 - m = w - 1 - m + p by omega]
  · refine Finset.sum_congr rfl fun m _ => ?_
    rw [Nat.add_assoc, show w + p - 1 - (w + m) = p - 1 - m by omega]

theorem bitsValue_of_ones {f : Nat → Nat} {start p : Nat} (h : ∀ m, m < p → f (start + m) = 1) :
    bitsValue f start p = 2 ^ p - 1 :=
  calc bitsValue f start p = ∑ m ∈ Finset.range p, 2 ^ (p - 1 - m) :=
        Finset.sum_congr rfl fun m hm => by rw [h m (Finset.mem_range.1 hm), one_mul]
    _ = ∑ m ∈ Finset.range p, 2 ^ m := Finset.sum_range_reflect (fun m => 2 ^ m) p
    _ = 2 ^ p - 1 := by rw [Nat.geomSum_eq le_rfl, Nat.div_one]

/-! ### The codepoints of the bytes (R107) -/

theorem totalBits_bytes (L : Nat) : totalBits L 8 8 = 8 * L := by
  unfold totalBits
  split <;> omega

/-- Group k of the 15-bit groups of `L` bytes (R86). -/
def byteGroup (byte : Nat → Nat) (L k : Nat) : Group := ⟨groupValue byte L 8 15 8 k, groupWidth (8 * L) 15 k⟩

theorem byteGroup_value (byte : Nat → Nat) (L k : Nat) :
    (byteGroup byte L k).value = bitsValue (streamBit byte L 8 8) (15 * k) (byteGroup byte L k).width := by
  rw [byteGroup, groupValue, totalBits_bytes, Nat.mul_comm k]

/-- A group of bytes has 15 bits, or it is the last and has what is left (R87, R107). -/
theorem byteGroup_width {L k : Nat} (byte : Nat → Nat) (hk : k < codepointCount L) :
    (byteGroup byte L k).width = min 15 (8 * L - 15 * k) := by
  rw [byteGroup, groupWidth_eq_min (by decide) hk, Nat.mul_comm k]

theorem byteGroup_width_bounds {L k : Nat} (byte : Nat → Nat) (hk : k < codepointCount L) :
    1 ≤ (byteGroup byte L k).width ∧ (byteGroup byte L k).width ≤ 15 := by
  obtain ⟨hpos, hle, -⟩ := groupWidth_bounds (by decide) hk
  exact ⟨hpos, hle⟩

/-- R87: a group of bytes that is not full is the last. -/
theorem last_of_byteGroup_short {byte : Nat → Nat} {L k : Nat} (hk : k < codepointCount L)
    (h : (byteGroup byte L k).width ≠ 15) : k + 1 = codepointCount L := by
  by_contra hne
  exact h (if_pos (lt_of_le_of_ne hk hne))

/-- R105, R107: the codepoint's tier is that of its group. -/
theorem codepointTier_eq_groupTier {L k : Nat} (byte : Nat → Nat) (hk : k < codepointCount L) :
    codepointTier L k = groupTier (byteGroup byte L k).width := by
  unfold codepointTier groupTier
  by_cases hlast : k + 1 = codepointCount L
  · have hwidth : min 15 (8 * L - 15 * k) ≤ 7 ↔ 8 * L - 15 * k ≤ 7 := by omega
    simp only [byteGroup_width byte hk, hwidth, ← hlast, Nat.add_sub_cancel, true_and]
  · have hfull : (byteGroup byte L k).width = 15 := by
      by_contra hshort
      exact hlast (last_of_byteGroup_short hk hshort)
    simp [hlast, hfull]

/-- R104: the group's bits, and behind them the 1-bits that follow the data. -/
theorem codepointValue_eq_paddedValue {L k : Nat} (byte : Nat → Nat) (hk : k < codepointCount L) :
    codepointValue byte L k = paddedValue (byteGroup byte L k) := by
  obtain ⟨-, hle⟩ := byteGroup_width_bounds byte hk
  have hwidth := byteGroup_width byte hk
  have hpad := add_groupPad hle
  have hdata : bitsValue (paddedBit byte L) (15 * k) (byteGroup byte L k).width = (byteGroup byte L k).value := by
    rw [byteGroup_value]
    exact bitsValue_congr fun m hm => if_pos (by omega)
  have hones : bitsValue (paddedBit byte L) (15 * k + (byteGroup byte L k).width)
      (groupPad (byteGroup byte L k).width) = 2 ^ groupPad (byteGroup byte L k).width - 1 :=
    bitsValue_of_ones fun m hm => if_neg (by omega)
  rw [codepointValue, codepointTier_eq_groupTier byte hk, ← hpad, bitsValue_add, hdata, hones, paddedValue]

/-! ### The groups of the input bytes -/

/-- The byte that ENCODE reads in entry i (R70). -/
def lowByte (s : State) (i : Nat) : Nat := (inEntry s i).toNat % 256

theorem inEntries_byteOf_getD {s : State} {i : Nat} (hi : i < s.inLen.toNat) :
    ((inEntries s).map byteOf).getD i 0 = lowByte s i := by
  rw [List.getD_eq_getElem?_getD, List.getElem?_map, inEntries_getElem?, if_pos hi]
  simp [byteOf, Word.slice, lowByte]

/-- R103, step (1). -/
theorem regroup_bytes (s : State) :
    regroup ((inEntries s).map byteOf) 8 15 8 =
      (List.range (codepointCount s.inLen.toNat)).map (byteGroup (lowByte s) s.inLen.toNat) := by
  rw [regroup_eq_map _ (by decide) (by decide) (by decide) le_rfl, List.length_map, inEntries_length,
    totalBits_bytes]
  refine List.map_congr_left fun k hk => ?_
  rw [byteGroup, groupValue_congr (by decide) (by decide) le_rfl (fun i hi => by rw [inEntries_byteOf_getD hi])
    (by rw [totalBits_bytes]; exact List.mem_range.1 hk)]

theorem byteGroup_value_lt {s : State} {k : Nat} (hk : k < codepointCount s.inLen.toNat) :
    (byteGroup (lowByte s) s.inLen.toNat k).value < 2 ^ (byteGroup (lowByte s) s.inLen.toNat k).width := by
  have hmem : byteGroup (lowByte s) s.inLen.toNat k ∈ regroup ((inEntries s).map byteOf) 8 15 8 := by
    rw [regroup_bytes]
    exact List.mem_map_of_mem (List.mem_range.2 hk)
  exact regroup_value_lt (by decide) (by decide) _ hmem

/-! ### The outcome of ENCODE -/

/-- Codepoint k of ENCODE's result (R103). -/
def encodedCodepoint (s : State) (k : Nat) : Nat :=
  (fwd s.cfg (codepointTier s.inLen.toNat k) (codepointValue (lowByte s) s.inLen.toNat k)).getD 0

/-- ENCODE's result, before it is held against OUT_DEPTH. -/
def encodeWords (s : State) : List Word :=
  ((List.range (codepointCount s.inLen.toNat)).map (encodedCodepoint s)).map codepointWord

/-- R106: no codepoint of the result is missing from the ROM. -/
theorem fwd_encodedCodepoint {s : State} (hwf : romWf s.cfg = true) {k : Nat} (hk : k < codepointCount s.inLen.toNat) :
    fwd s.cfg (codepointTier s.inLen.toNat k) (codepointValue (lowByte s) s.inLen.toNat k) =
      some (encodedCodepoint s k) := by
  obtain ⟨-, hle⟩ := byteGroup_width_bounds (lowByte s) hk
  obtain ⟨cp, hfwd⟩ := exists_fwd_paddedValue hwf hle (byteGroup_value_lt hk)
  rw [← codepointTier_eq_groupTier (lowByte s) hk, ← codepointValue_eq_paddedValue (lowByte s) hk] at hfwd
  rw [encodedCodepoint, hfwd, Option.getD_some]

/-- R109: under WF_ROM every group of the input passes. -/
theorem encodeGroups_bytes {s : State} (hwf : romWf s.cfg = true) :
    encodeGroups s.cfg 0 (regroup ((inEntries s).map byteOf) 8 15 8) =
      .ok ((List.range (codepointCount s.inLen.toNat)).map (encodedCodepoint s)) := by
  rw [regroup_bytes, encodeGroups_eq_ok_iff]
  refine ⟨by simp, fun k g hg => ?_⟩
  simp only [List.getElem?_map, Option.map_eq_some_iff, List.getElem?_eq_some_iff, List.length_range,
    List.getElem_range] at hg
  obtain ⟨_, ⟨hk, rfl⟩, rfl⟩ := hg
  obtain ⟨hpos, hle⟩ := byteGroup_width_bounds (lowByte s) hk
  have hfwd := fwd_encodedCodepoint hwf hk
  rw [codepointTier_eq_groupTier (lowByte s) hk, codepointValue_eq_paddedValue _ hk] at hfwd
  refine ⟨encodedCodepoint s k, by simp [hk], encodeGroup_of_fwd hpos hle (fun hshort => ?_) hfwd⟩
  simpa using last_of_byteGroup_short hk hshort

theorem encodeOutcome_of_inputLength {s : State} (hL : s.cfg.inDepth < s.inLen.toNat) :
    encodeOutcome s = .error ⟨.inputLength, none⟩ := by
  rw [encodeOutcome, checkInputLength_error hL]

theorem encodeOutcome_of_inputFits {s : State} (hwf : romWf s.cfg = true) (hL : s.inLen.toNat ≤ s.cfg.inDepth) :
    encodeOutcome s = checkCapacity s (encodeWords s) := by
  rw [encodeOutcome, checkInputLength_ok hL, encodeGroups_bytes hwf, encodeWords]

theorem exec_encode (s : State) : exec .encode s = .next (completeBuffer (encodeOutcome s) s) := rfl

theorem encodeWords_length (s : State) : (encodeWords s).length = codepointCount s.inLen.toNat := by
  rw [encodeWords, List.length_map, List.length_map, List.length_range]

theorem encodeWords_getElem? {s : State} {k : Nat} (hk : k < codepointCount s.inLen.toNat) :
    (encodeWords s)[k]? = some (BitVec.ofNat 32 (encodedCodepoint s k)) := by
  rw [encodeWords, List.getElem?_map, List.getElem?_map, List.getElem?_range hk]
  rfl

/-- R71: an output word holds the whole codepoint, whose 16 bits W3 bounds. -/
theorem codepointWord_toNat {c : Config} (hwf : romWf c = true) {t v cp : Nat} (h : fwd c t v = some cp) :
    (codepointWord cp).toNat = cp := by
  obtain ⟨hfit, -⟩ := fwd_singleUnit hwf h
  exact Nat.mod_eq_of_lt (by omega)

/-! ### The final codepoint (R108) -/

theorem codepointCount_pos {L : Nat} (hL : 1 ≤ L) : 1 ≤ codepointCount L := by
  unfold codepointCount ceilDiv
  omega

/-- R108: 8 is a half modulo 15, so an even L leaves `L mod 15 / 2` bits and an odd one at least 8. -/
theorem bits_mod_iff (L : Nat) : (1 ≤ 8 * L % 15 ∧ 8 * L % 15 ≤ 7) ↔ L % 15 ≠ 0 ∧ L % 15 % 2 = 0 := by
  have hresidues : ∀ r < 15, (1 ≤ 8 * r % 15 ∧ 8 * r % 15 ≤ 7) ↔ r ≠ 0 ∧ r % 2 = 0 := by decide
  rw [← hresidues (L % 15) (Nat.mod_lt L (by decide)), Nat.mul_mod_mod]

/-- R107: what a stream of T bits leaves for its last group. -/
theorem lastWidth_le_seven_iff {T : Nat} (hT : 1 ≤ T) :
    T - 15 * (ceilDiv T 15 - 1) ≤ 7 ↔ 1 ≤ T % 15 ∧ T % 15 ≤ 7 := by
  unfold ceilDiv
  omega

theorem codepointTier_last {L : Nat} (hL : 1 ≤ L) :
    codepointTier L (codepointCount L - 1) = if L % 15 ≠ 0 ∧ L % 15 % 2 = 0 then 1 else 0 := by
  have hlast : codepointCount L - 1 + 1 = codepointCount L := Nat.sub_add_cancel (codepointCount_pos hL)
  have hwidth : 8 * L - 15 * (codepointCount L - 1) ≤ 7 ↔ L % 15 ≠ 0 ∧ L % 15 % 2 = 0 :=
    (lastWidth_le_seven_iff (by omega)).trans (bits_mod_iff L)
  simp only [codepointTier, hlast, true_and, hwidth]

end Sys2Proof.Machine
end

section
/-! PROOF. The obligations of 43_encode.md: padding and tiers, ENCODE, and the final codepoint's tier. -/

namespace Sys2Proof.Claims

open Sys2Proof.Machine

/-- Settles O24: `tierAndValue_eq` is R105's table, read at the three ranges of the width. -/
theorem paddingAndTierOfEveryWidth : Obligations.PaddingAndTierOfEveryWidth := by
  intro v w h1 h15 hv
  have htable : tierAndValue ⟨v, w⟩ = (groupTier w, paddedValue ⟨v, w⟩) := tierAndValue_eq h1 h15
  have hdomain : paddedValue ⟨v, w⟩ < domainSize (groupTier w) := paddedValue_lt h15 hv
  refine ⟨Nat.mod_lt _ (by decide), fun c hwf => ?lookup, ?table⟩
  case lookup =>
    rw [htable]
    exact exists_fwd_paddedValue (g := ⟨v, w⟩) hwf h15 hv
  case table =>
    split
    case isTrue hfull => exact if_pos hfull
    case isFalse =>
    rw [padBits_eq_groupPad h1 h15, htable]
    split
    case isTrue hhigh =>
      rw [groupTier_of_gt hhigh] at hdomain ⊢
      have hpad : groupPad w = 15 - w := by rw [groupPad, groupTier_of_gt hhigh]
      rw [paddedValue, hpad] at hdomain ⊢
      exact ⟨rfl, hdomain, rfl⟩
    case isFalse hlow =>
      have htier : groupTier w = 1 := groupTier_of_le (by omega)
      have hpad : groupPad w = 7 - w := by rw [groupPad, htier]
      rw [htier, paddedValue, hpad] at hdomain ⊢
      exact ⟨rfl, hdomain, rfl⟩

/-- Settles O25: the checks run in R103's order; between them no group fails, and the result is `encodeWords`. -/
theorem encodeCommand : Obligations.EncodeCommand := by
  refine fun s hcfg => ⟨_, exec_encode s, ?_⟩
  have hwf := romWf_of_legal hcfg
  have hlen := encodeWords_length s
  split
  case isTrue hL =>
    rw [encodeOutcome_of_inputLength hL]
    exact raiseError_bufferFailed ⟨.inputLength, none⟩ s
  case isFalse hL =>
  rw [encodeOutcome_of_inputFits hwf (not_lt.1 hL)]
  split
  case isTrue hG =>
    rw [checkCapacity_error (hlen ▸ hG)]
    exact raiseError_bufferFailed ⟨.outputCapacity, none⟩ s
  case isFalse hG =>
    have hdepth := outDepth_le_of_legal hcfg
    rw [checkCapacity_ok (hlen ▸ not_lt.1 hG)]
    exact ⟨encodedCodepoint s, fun k hk => fwd_encodedCodepoint hwf hk,
      commitBuffer_bufferDone hlen (by omega) fun k hk => encodeWords_getElem? hk⟩

/-- Settles O26: the last word is the forward lookup of its tier, the reverse lookup gives the tier back, and
`codepointTier_last` says which it is. -/
theorem encodeFinalTier : Obligations.EncodeFinalTier := by
  refine ⟨fun L hne heven => (bits_mod_iff L).2 ⟨hne, heven⟩, fun s hcfg hpos hL hG => ?_⟩
  have hwf := romWf_of_legal hcfg
  obtain ⟨t, hexec, hout⟩ := encodeCommand s hcfg
  rw [if_neg (not_lt.2 hL), if_neg (not_lt.2 hG)] at hout
  obtain ⟨cp, hfwd, -, hlen, hwords, -⟩ := hout
  have hlast : codepointCount s.inLen.toNat - 1 < codepointCount s.inLen.toNat :=
    Nat.sub_one_lt_of_lt (codepointCount_pos hpos)
  have hlookup := hfwd _ hlast
  have hrev := (fwd_eq_some_iff_rev hwf _ _ _).1 hlookup
  rw [codepointTier_last hpos, ← codepointWord_toNat hwf hlookup] at hrev
  refine ⟨t, _, _, hexec, ?_, hrev⟩
  rw [hlen]
  exact hwords _ hlast

end Sys2Proof.Claims
end

section
/-! SUPPORT. DECODE (44_decode.md R111 to R118): one character case by case, the full bytes of a text's stream, and the
outcome of the command. -/

namespace Sys2Proof.Machine

open Sys2Proof.Claims

/-! ### One character (R111, R112, R118) -/

theorem decodeChar_of_wide {cp : Nat} (h : 0xFFFF < cp) (c : Config) (p : Nat) (last : Bool) :
    decodeChar c p cp last = .error ⟨.invalidCharacterWidth, some p⟩ := if_pos h

theorem decodeChar_of_none {c : Config} {cp : Nat} (hcp : cp ≤ 0xFFFF) (h : rev c cp = none) (p : Nat) (last : Bool) :
    decodeChar c p cp last = .error ⟨.invalidCharacter, some p⟩ := by
  rw [decodeChar, if_neg (not_lt.2 hcp), h]

/-- A codepoint of the ROM passes the width check. -/
theorem rev_le {c : Config} (hwf : romWf c = true) {cp t v : Nat} (h : rev c cp = some (t, v)) : cp ≤ 0xFFFF := by
  obtain ⟨hle, -⟩ := fwd_singleUnit hwf ((fwd_eq_some_iff_rev hwf cp t v).2 h)
  exact hle

/-- The tier of a codepoint of the ROM, and its place, decide on it (R113). -/
theorem decodeChar_of_rev {c : Config} (hwf : romWf c = true) {cp t v : Nat} (h : rev c cp = some (t, v)) (p : Nat)
    (last : Bool) :
    decodeChar c p cp last = if t ≥ 1 && !last then .error ⟨.misplacedPadding, some p⟩ else .ok (t, v) := by
  rw [decodeChar, if_neg (not_lt.2 (rev_le hwf h)), h]

/-! ### The first error (R123, R124) -/

theorem exec_decode (s : State) : exec .decode s = .next (completeBuffer (decodeOutcome s) s) := rfl

theorem decodeOutcome_of_inputLength {s : State} (hL : s.cfg.inDepth < s.inLen.toNat) :
    decodeOutcome s = .error ⟨.inputLength, none⟩ := by
  rw [decodeOutcome, checkInputLength_error hL]

theorem inEntries_codepointOf_getElem? (s : State) (p : Nat) :
    ((inEntries s).map codepointOf)[p]? = if p < s.inLen.toNat then some (inEntry s p).toNat else none := by
  rw [List.getElem?_map, inEntries_getElem?]
  split <;> rfl

/-- The character at position p as DECODE meets it. -/
def decodeCharAt (s : State) (p : Nat) : Except Raised (Nat × Nat) :=
  decodeChar s.cfg p (inEntry s p).toNat (decide (p + 1 = s.inLen.toNat))

/-- A character that fails behind tier-0 codepoints is DECODE's error. -/
theorem decodeOutcome_of_charError {s : State} (hwf : romWf s.cfg = true) (hL : s.inLen.toNat ≤ s.cfg.inDepth) {p : Nat}
    (hp : p < s.inLen.toNat) (hbefore : ∀ q, q < p → ∃ v, rev s.cfg (inEntry s q).toNat = some (0, v)) {e : Raised}
    (he : decodeCharAt s p = .error e) : decodeOutcome s = .error e := by
  have hchars : decodeChars s.cfg 0 ((inEntries s).map codepointOf) = .error e := by
    rw [decodeChars_eq_error_iff, List.length_map, inEntries_length]
    refine ⟨p, _, (inEntries_codepointOf_getElem? s p).trans (if_pos hp), by rwa [Nat.zero_add], fun q cp hq hcp => ?_⟩
    rw [inEntries_codepointOf_getElem?, if_pos (hq.trans hp), Option.some.injEq] at hcp
    obtain ⟨v, hv⟩ := hbefore q hq
    exact ⟨(0, v), hcp ▸ decodeChar_of_rev hwf hv _ _⟩
  rw [decodeOutcome, checkInputLength_ok hL, hchars]

/-! ### The characters of a text (R112, R115) -/

/-- What R115 asks of a text: its characters are in the ROM, and none but the last is of tier 1. -/
structure IsText (s : State) (tier value : Nat → Nat) : Prop where
  rev      : ∀ p, p < s.inLen.toNat → rev s.cfg (inEntry s p).toNat = some (tier p, value p)
  tierZero : ∀ p, p + 1 < s.inLen.toNat → tier p = 0

theorem IsText.decodeCharAt {s : State} {tier value : Nat → Nat} (h : IsText s tier value) (hwf : romWf s.cfg = true)
    {p : Nat} (hp : p < s.inLen.toNat) : decodeCharAt s p = .ok (tier p, value p) := by
  refine (decodeChar_of_rev hwf (h.rev p hp) _ _).trans (if_neg ?_)
  by_cases hlast : p + 1 = s.inLen.toNat
  · simp [hlast]
  · simp [h.tierZero p (by omega)]

/-- `last_w` is `valid_bits` of the last character (R112). -/
theorem textLastW_eq {tier : Nat → Nat} {L : Nat} (hL : L ≠ 0) (ht : tier (L - 1) < 2) :
    textLastW tier L = 15 - 8 * tier (L - 1) := by
  unfold textLastW
  split <;> omega

/-- `last_w` as the loop finds it: 15 until a character of a tier t >= 1 makes it `15 - 8*t` (R111). -/
theorem IsText.lastW {s : State} {tier value : Nat → Nat} (h : IsText s tier value) :
    (if ∃ p, p < s.inLen.toNat ∧ 1 ≤ tier p then 15 - 8 * tier (s.inLen.toNat - 1) else 15) =
      textLastW tier s.inLen.toNat := by
  by_cases hL : s.inLen.toNat = 0
  · simp [textLastW, hL]
  have hlast : s.inLen.toNat - 1 < s.inLen.toNat := by omega
  rw [textLastW_eq hL (rev_tier_lt_two (h.rev _ hlast))]
  split
  case isTrue => rfl
  case isFalse hnone =>
    have hzero : ¬ 1 ≤ tier (s.inLen.toNat - 1) := fun hone => hnone ⟨_, hlast, hone⟩
    omega

theorem IsText.decodeChars {s : State} {tier value : Nat → Nat} (h : IsText s tier value) (hwf : romWf s.cfg = true) :
    decodeChars s.cfg 0 ((inEntries s).map codepointOf) =
      .ok ((List.range s.inLen.toNat).map value, textLastW tier s.inLen.toNat) := by
  have hchars := decodeChars_ok s.cfg 0 ((inEntries s).map codepointOf) tier value fun p cp hcp => by
    rw [inEntries_codepointOf_getElem?, Option.ite_none_right_eq_some, Option.some.injEq] at hcp
    obtain ⟨hp, rfl⟩ := hcp
    rw [Nat.zero_add, List.length_map, inEntries_length]
    exact h.decodeCharAt hwf hp
  rw [hchars, List.length_map, inEntries_length, h.lastW]

/-! ### The full bytes of a stream (R114, R116) -/

/-- A group of 8 bits is full exactly when it ends within the stream. -/
theorem groupWidth_eq_eight_iff {T k : Nat} (hk : k < ceilDiv T 8) : groupWidth T 8 k = 8 ↔ k < T / 8 := by
  rw [groupWidth_eq_min (by decide) hk]
  omega

/-- R114: dropping the group that is no full byte leaves the first `floor(T / 8)`. -/
theorem filter_groupWidth_eq_eight (T : Nat) :
    (List.range (ceilDiv T 8)).filter (fun k => groupWidth T 8 k == 8) = List.range (T / 8) := by
  have hle : T / 8 ≤ ceilDiv T 8 := Nat.div_le_div_right (by omega)
  calc (List.range (ceilDiv T 8)).filter (fun k => groupWidth T 8 k == 8)
      = (List.range (ceilDiv T 8)).filter (fun k => k < T / 8) :=
        List.filter_congr fun k hk => by
          rw [Bool.eq_iff_iff, beq_iff_eq, decide_eq_true_iff, groupWidth_eq_eight_iff (List.mem_range.1 hk)]
    _ = List.range (T / 8) := by
        rw [← List.Ico.zero_bot, List.Ico.filter_lt_of_ge hle, List.Ico.zero_bot]

/-- The full bytes of a regrouping are the whole bytes of its stream, in order. -/
theorem fullBytes_regroup (elems : List Nat) {inW lastW : Nat} (hi : 1 ≤ inW) (hl : lastW ≤ inW) :
    fullBytes (regroup elems inW 8 lastW) =
      (List.range (totalBits elems.length inW lastW / 8)).map fun k =>
        bitsValue (streamBit (fun i => elems.getD i 0) elems.length inW lastW) (8 * k) 8 := by
  rw [regroup_eq_map elems hi (by decide) (by decide) hl, fullBytes, List.filter_map, List.map_map]
  simp only [Function.comp_def, filter_groupWidth_eq_eight]
  refine List.map_congr_left fun k hk => ?_
  have hk' : k < totalBits elems.length inW lastW / 8 := List.mem_range.1 hk
  have hwidth : groupWidth (totalBits elems.length inW lastW) 8 k = 8 :=
    (groupWidth_eq_eight_iff (hk'.trans_le (Nat.div_le_div_right (by omega)))).2 hk'
  simp only [groupValue, hwidth, Nat.mul_comm k]

/-! ### The outcome on a text -/

theorem textLastW_bounds (tier : Nat → Nat) (L : Nat) : 1 ≤ textLastW tier L ∧ textLastW tier L ≤ 15 := by
  unfold textLastW
  split <;> decide

/-- Byte k of the stream of a text's values (R114). -/
def textByte (tier value : Nat → Nat) (L k : Nat) : Nat := bitsValue (streamBit value L 15 (textLastW tier L)) (8 * k) 8

theorem fullBytes_text (tier value : Nat → Nat) (L : Nat) :
    fullBytes (regroup ((List.range L).map value) 15 8 (textLastW tier L)) =
      (List.range (textBits tier L / 8)).map (textByte tier value L) := by
  obtain ⟨h1, hl⟩ := textLastW_bounds tier L
  rw [fullBytes_regroup _ (by decide) hl, List.length_map, List.length_range, textBits]
  refine List.map_congr_left fun k hk => bitsValue_congr fun m hm => ?_
  have hk' : k < totalBits L 15 (textLastW tier L) / 8 := List.mem_range.1 hk
  exact streamBit_congr h1 hl (fun i hi => by simp [hi]) (by omega)

/-- DECODE's result on a text, before it is held against OUT_DEPTH. -/
def textWords (tier value : Nat → Nat) (L : Nat) : List Word :=
  ((List.range (textBits tier L / 8)).map (textByte tier value L)).map byteWord

theorem textWords_length (tier value : Nat → Nat) (L : Nat) :
    (textWords tier value L).length = textBits tier L / 8 := by
  rw [textWords, List.length_map, List.length_map, List.length_range]

theorem textWords_getElem? {tier : Nat → Nat} {L k : Nat} (value : Nat → Nat) (hk : k < textBits tier L / 8) :
    (textWords tier value L)[k]? = some (BitVec.ofNat 32 (textByte tier value L k)) := by
  rw [textWords, List.getElem?_map, List.getElem?_map, List.getElem?_range hk]
  rfl

theorem IsText.decodeOutcome {s : State} {tier value : Nat → Nat} (h : IsText s tier value) (hwf : romWf s.cfg = true)
    (hL : s.inLen.toNat ≤ s.cfg.inDepth) :
    decodeOutcome s = checkCapacity s (textWords tier value s.inLen.toNat) := by
  rw [Machine.decodeOutcome, checkInputLength_ok hL, h.decodeChars hwf]
  exact congrArg (fun bytes => checkCapacity s (bytes.map byteWord)) (fullBytes_text tier value s.inLen.toNat)

end Sys2Proof.Machine
end

section
/-! SUPPORT. The stream of what ENCODE writes (44_decode.md R117): its values give back the padded stream of
43_encode.md R104, whose whole bytes are the bytes encoded. -/

namespace Sys2Proof.Machine

open Sys2Proof.Claims

/-! ### Numbers and their bits -/

theorem bitsValue_succ (f : Nat → Nat) (start w : Nat) :
    bitsValue f start (w + 1) = bitsValue f start w * 2 + f (start + w) := by
  rw [bitsValue_add, pow_one]
  simp [bitsValue]

theorem bitsValue_lt {f : Nat → Nat} (hf : ∀ n, f n < 2) (start w : Nat) : bitsValue f start w < 2 ^ w := by
  induction w with
  | zero => simp [bitsValue]
  | succ w ih =>
    have hbit := hf (start + w)
    rw [bitsValue_succ, pow_succ]
    omega

/-- Bit `w - 1 - m` of a number read off a stream is the stream's bit m. -/
theorem bitsValue_div_mod {f : Nat → Nat} (hf : ∀ n, f n < 2) (start : Nat) {w m : Nat} (hm : m < w) :
    bitsValue f start w / 2 ^ (w - 1 - m) % 2 = f (start + m) := by
  obtain ⟨p, rfl⟩ : ∃ p, w = m + 1 + p := Nat.exists_eq_add_of_le hm
  have hp : m + 1 + p - 1 - m = p := by omega
  have hhigh : bitsValue f start (m + 1 + p) / 2 ^ p = bitsValue f start (m + 1) := by
    rw [bitsValue_add, Nat.add_comm, Nat.add_mul_div_right _ _ (Nat.two_pow_pos p),
      Nat.div_eq_of_lt (bitsValue_lt hf _ p), Nat.zero_add]
  rw [hp, hhigh, bitsValue_succ, Nat.add_comm, Nat.add_mul_mod_self_right, Nat.mod_eq_of_lt (hf _)]

/-- A number is read back from its bits. -/
theorem bitsValue_eq_mod {f : Nat → Nat} {start w e : Nat} (h : ∀ m, m < w → f (start + m) = e / 2 ^ (w - 1 - m) % 2) :
    bitsValue f start w = e % 2 ^ w := by
  induction w generalizing e with
  | zero => simp [bitsValue, Nat.mod_one]
  | succ w ih =>
    have hlow : f (start + w) = e % 2 := by simpa using h w w.lt_succ_self
    have hhigh : bitsValue f start w = e / 2 % 2 ^ w := ih fun m hm => by
      rw [h m (by omega), Nat.div_div_eq_div_mul, ← pow_succ', show w + 1 - 1 - m = w - 1 - m + 1 by omega]
    rw [bitsValue_succ, hlow, hhigh, pow_succ', Nat.mod_mul]
    ring

/-- The place of a bit in its element is below the element's width (R86). -/
theorem mod_lt_elementWidth {L inW lastW n : Nat} (hi : 1 ≤ inW) (hn : n < totalBits L inW lastW) :
    n % inW < elementWidth L inW lastW (n / inW) := by
  have hmod : n % inW < inW := Nat.mod_lt n hi
  have hdiv : n / inW * inW + n % inW = n := Nat.div_add_mod' n inW
  unfold elementWidth
  split
  case isTrue hlast =>
    have hL : L ≠ 0 := hlast ▸ Nat.succ_ne_zero _
    rw [totalBits, if_neg hL, ← hlast, Nat.add_sub_cancel] at hn
    omega
  case isFalse => exact hmod

/-! ### The padded stream, back from its codepoints -/

theorem paddedBit_lt_two (byte : Nat → Nat) (L n : Nat) : paddedBit byte L n < 2 := by
  unfold paddedBit streamBit
  split
  · exact Nat.mod_lt _ two_pos
  · decide

/-- No codepoint but the last is of tier 1 (R105). -/
theorem codepointTier_of_lt {L k : Nat} (h : k + 1 < codepointCount L) : codepointTier L k = 0 :=
  if_neg fun ⟨hlast, _⟩ => h.ne hlast

theorem codepointTier_lt_two (L k : Nat) : codepointTier L k < 2 := by
  unfold codepointTier
  split <;> decide

/-- The text of L bytes ends with less than a byte of padding (R107, R117). -/
theorem textBits_encoded (L : Nat) : textBits (codepointTier L) (codepointCount L) / 8 = L := by
  by_cases hL : L = 0
  · subst hL
    decide
  have hG : codepointCount L = (8 * L + 14) / 15 := rfl
  have hne : codepointCount L ≠ 0 := by omega
  have hlast : codepointCount L - 1 + 1 = codepointCount L := by omega
  rw [textBits, totalBits, if_neg hne, textLastW_eq hne (codepointTier_lt_two _ _), codepointTier, hlast]
  simp only [true_and]
  split <;> omega

/-- A character of the text takes as many bits as its codepoint has. -/
theorem elementWidth_encoded {L k : Nat} (hk : k < codepointCount L) :
    elementWidth (codepointCount L) 15 (textLastW (codepointTier L) (codepointCount L)) k =
      15 - 8 * codepointTier L k := by
  unfold elementWidth
  split
  case isTrue hlast =>
    rw [textLastW_eq (by omega) (codepointTier_lt_two _ _), ← hlast, Nat.add_sub_cancel]
  case isFalse hlast => rw [codepointTier_of_lt (by omega)]

/-- R117: the values of the codepoints give back the padded stream. -/
theorem streamBit_encoded {byte : Nat → Nat} {L n : Nat}
    (hn : n < textBits (codepointTier L) (codepointCount L)) :
    streamBit (codepointValue byte L) (codepointCount L) 15 (textLastW (codepointTier L) (codepointCount L)) n =
      paddedBit byte L n := by
  obtain ⟨-, hl⟩ := textLastW_bounds (codepointTier L) (codepointCount L)
  have hk : n / 15 < codepointCount L := div_lt_of_lt_totalBits hl hn
  have hm : n % 15 < 15 - 8 * codepointTier L (n / 15) := by
    rw [← elementWidth_encoded hk]
    exact mod_lt_elementWidth (by decide) hn
  rw [streamBit, elementWidth_encoded hk, codepointValue, bitsValue_div_mod (paddedBit_lt_two byte L) _ hm,
    Nat.div_add_mod]

/-- The stream of bytes holds each byte in eight bits (R103). -/
theorem bitsValue_byte (byte : Nat → Nat) (L k : Nat) : bitsValue (streamBit byte L 8 8) (8 * k) 8 = byte k % 256 :=
  bitsValue_eq_mod (w := 8) fun m hm => by
    have hdiv : (8 * k + m) / 8 = k := by omega
    have hmod : (8 * k + m) % 8 = m := by omega
    rw [streamBit, hdiv, hmod, elementWidth, ite_self]

/-- R117: the whole bytes of the text are the bytes encoded. -/
theorem textByte_encoded {byte : Nat → Nat} {L k : Nat} (hk : k < L) :
    textByte (codepointTier L) (codepointValue byte L) (codepointCount L) k = byte k % 256 := by
  have hbits := textBits_encoded L
  rw [← bitsValue_byte byte L k, textByte]
  refine bitsValue_congr fun m hm => ?_
  rw [streamBit_encoded (by omega), paddedBit, if_pos (by omega)]

end Sys2Proof.Machine
end

section
/-! PROOF. The obligations of 44_decode.md: DECODE of a text, its first error, and the round trip. -/

namespace Sys2Proof.Claims

open Sys2Proof.Machine

/-- Settles O27: past the length check no character of a text fails, and the result is `textWords`. -/
theorem decodeOfAText : Obligations.DecodeOfAText := by
  intro s tier value hcfg hL hrev hzero
  have htext : IsText s tier value := ⟨hrev, hzero⟩
  have hlen := textWords_length tier value s.inLen.toNat
  refine ⟨_, exec_decode s, ?_⟩
  rw [htext.decodeOutcome (romWf_of_legal hcfg) hL]
  split
  case isTrue hT =>
    rw [checkCapacity_error (hlen ▸ hT)]
    exact raiseError_bufferFailed ⟨.outputCapacity, none⟩ s
  case isFalse hT =>
    have hdepth := outDepth_le_of_legal hcfg
    rw [checkCapacity_ok (hlen ▸ not_lt.1 hT)]
    exact commitBuffer_bufferDone hlen (by omega) fun k hk => textWords_getElem? value hk

/-- Settles O28: a failing character behind tier-0 codepoints decides the outcome, and each clause is one way for a
character to fail; W3 makes a surrogate a codepoint in no tier. -/
theorem decodeFirstError : Obligations.DecodeFirstError := by
  refine fun s hcfg => ⟨fun hL => ⟨_, exec_decode s, ?_⟩, fun hL p hp hbefore => ⟨_, exec_decode s, ?_⟩⟩
  · rw [decodeOutcome_of_inputLength hL]
    exact raiseError_bufferFailed ⟨.inputLength, none⟩ s
  have hwf := romWf_of_legal hcfg
  have hfails {e : Err} (he : decodeCharAt s p = .error ⟨e, some p⟩) :
      BufferFailed s (completeBuffer (decodeOutcome s) s) (errCodeOf e) (BitVec.ofNat 32 p) := by
    rw [decodeOutcome_of_charError hwf hL hp hbefore he]
    exact raiseError_bufferFailed ⟨e, some p⟩ s
  refine ⟨fun hwide => ?width, fun hcp hnone => ?unknown, fun hlow hhigh => ?surrogate, fun v hrev hnext => ?padding⟩
  case width => exact hfails (decodeChar_of_wide hwide _ _ _)
  case unknown => exact hfails (decodeChar_of_none hcp hnone _ _)
  case surrogate =>
    have hnone : rev s.cfg (inEntry s p).toNat = none := rev_eq_none_of_not_singleUnit hwf (by omega)
    exact hfails (decodeChar_of_none (by omega) hnone _ _)
  case padding =>
    refine hfails ((decodeChar_of_rev hwf hrev _ _).trans (if_pos ?_))
    simp [hnext.ne]

/-- Settles O29: what ENCODE wrote is a text by `fwd_eq_some_iff_rev`, and the bytes of its stream are those encoded. -/
theorem decodeOfEncodeIsIdentity : Obligations.DecodeOfEncodeIsIdentity := by
  intro s u hcfg hucfg hL hLout hG hGout
  have hwf := romWf_of_legal hcfg
  obtain ⟨t, hexec, hout⟩ := encodeCommand s hcfg
  rw [if_neg (not_lt.2 hL), if_neg (not_lt.2 hGout)] at hout
  obtain ⟨cp, hfwd, hstate, hlen, hwords, -⟩ := hout
  refine ⟨t, hexec, congrArg State.err hstate, hlen, fun hinLen hheld => ?_⟩
  have huLen : u.inLen.toNat = codepointCount s.inLen.toNat := by rw [hinLen, hlen]
  have hrev : ∀ k, k < u.inLen.toNat → rev u.cfg (inEntry u k).toNat =
      some (codepointTier s.inLen.toNat k, codepointValue (lowByte s) s.inLen.toNat k) := by
    intro k hk
    rw [huLen] at hk
    have hentry : inEntry u k = codepointWord (cp k) :=
      Option.some.inj ((hheld k (hlen ▸ hk)).symm.trans (hwords k hk))
    rw [hentry, codepointWord_toNat hwf (hfwd k hk), hucfg]
    exact (fwd_eq_some_iff_rev hwf _ _ _).1 (hfwd k hk)
  obtain ⟨v, hdecode, hdone⟩ := decodeOfAText u _ _ (hucfg ▸ hcfg) (by rwa [huLen, hucfg]) hrev
    fun k hk => codepointTier_of_lt (huLen ▸ hk)
  rw [huLen, textBits_encoded, hucfg, if_neg (not_lt.2 hLout)] at hdone
  obtain ⟨hvstate, hvlen, hbytes, hkept⟩ := hdone
  refine ⟨v, hdecode, hvstate, hvlen, fun k hk => (hbytes k hk).trans ?_, hkept⟩
  have hbyte := (textByte_encoded (byte := lowByte s) hk).trans (Nat.mod_mod _ _)
  exact congrArg (fun b => some (BitVec.ofNat 32 b)) hbyte

end Sys2Proof.Claims
end

section
/-! SUPPORT. The class of each command (60_exceptions.md R121), the one way a command can end with ERR = 1, and what
`raise E(pos)` leaves in every class. -/

namespace Sys2Proof.Machine

open Sys2Proof.Claims

/-! ### The class of a command -/

/-- The class by which R121 picks an error's writes; NOP and CLEAR raise none and have no class. -/
def commandClass : Instr → CommandClass
  | .nop => .none
  | .resize _ _ _ => .buffer
  | .encode => .buffer
  | .decode => .buffer
  | .fwd _ _ => .lookup
  | .rev _ => .lookup
  | .clear => .none

theorem isBufferCommand_iff (i : Instr) : isBufferCommand i = true ↔ commandClass i = .buffer := by
  cases i <;> simp [isBufferCommand, commandClass]

theorem isLookupCommand_iff (i : Instr) : isLookupCommand i = true ↔ commandClass i = .lookup := by
  cases i <;> simp [isLookupCommand, commandClass]

/-! ### A command that ends with ERR = 1 -/

theorem completeBuffer_of_err {r : Except Raised (List Word)} {s : State} (h : (completeBuffer r s).err = true) :
    ∃ e, r = .error e ∧ completeBuffer r s = raiseError .buffer e s := by
  obtain ⟨out, -, hcommit⟩ | hraise := completeBuffer_cases r s
  · rw [hcommit] at h
    cases h
  · exact hraise

theorem completeLookup_of_err {r : Except Raised Word} {s : State} (h : (completeLookup r s).err = true) :
    ∃ e, r = .error e ∧ completeLookup r s = raiseError .lookup e s := by
  obtain ⟨w, -, hcommit⟩ | hraise := completeLookup_cases r s
  · rw [hcommit] at h
    cases h
  · exact hraise

/-- The one error entry is the only way to ERR = 1, for every command but NOP, which keeps an earlier ERR (R79). -/
theorem exec_of_err {i : Instr} {s t : State} (hi : i ≠ .nop) (hexec : exec i s = .next t) (herr : t.err = true) :
    ∃ e, t = raiseError (commandClass i) e s := by
  cases i with
  | nop => exact absurd rfl hi
  | clear =>
    cases hexec
    cases herr
  | resize | encode | decode =>
    cases hexec
    obtain ⟨e, -, hraise⟩ := completeBuffer_of_err herr
    exact ⟨e, hraise⟩
  | fwd | rev =>
    cases hexec
    obtain ⟨e, -, hraise⟩ := completeLookup_of_err herr
    exact ⟨e, hraise⟩

/-! ### What an error leaves, in every class -/

theorem raiseError_errCode (c : CommandClass) (e : Raised) (s : State) :
    (raiseError c e s).errCode = errCodeOf e.err := by
  cases c <;> rfl

/-- What a command reads, IRQEN, HAZ and the ROM are in no class's writes (R121). -/
theorem raiseError_keeps_inputs (c : CommandClass) (e : Raised) (s : State) :
    (raiseError c e s).inLen = s.inLen ∧ (raiseError c e s).inMem = s.inMem ∧ (raiseError c e s).ie = s.ie ∧
      (raiseError c e s).haz = s.haz ∧ (raiseError c e s).cfg = s.cfg := by
  cases c with
  | buffer | lookup | none => exact ⟨rfl, rfl, rfl, rfl, rfl⟩

end Sys2Proof.Machine
end

section
/-! PROOF. The obligations of 60_exceptions.md: an error publishes no partial result. -/

namespace Sys2Proof.Claims

open Sys2Proof.Machine

/-- Settles O31: ERR = 1 comes from `raiseError` in the command's own class, whose writes these are; OUT_LEN = 0 hides
OUT_MEM, and the codes of R119 are 1 to 0xA. -/
theorem errorLeavesNoPartialResult : Obligations.ErrorLeavesNoPartialResult := by
  intro i s t hi hexec herr
  obtain ⟨e, rfl⟩ := exec_of_err hi hexec herr
  refine ⟨fun hbuffer => ?output, fun hlookup => ?result, ?isError, fun n hn => ?inRange, raiseError_keeps_inputs _ e s⟩
  case output =>
    rw [(isBufferCommand_iff i).1 hbuffer]
    have hempty := raiseError_buffer_outLen s e
    exact ⟨hempty, outputIsUnspecified_of_outLen_zero hempty⟩
  case result =>
    rw [(isLookupCommand_iff i).1 hlookup, raiseError_lookup_lkRes]
    exact ⟨rfl, rfl⟩
  case isError =>
    rw [raiseError_errCode]
    exact errCodeOf_ne_zero e.err
  case inRange =>
    rw [raiseError_errCode]
    have hcode := errCodeOf_le e.err
    omega

end Sys2Proof.Claims
end

section
/-! SUPPORT. Where a host write takes effect (20_memory.md R43, 70_reset_and_hazards.md R144), and the RESET turn (R138,
R139). -/

namespace Sys2Proof.Machine

/-! ### Writes in the BUSY window, by target -/

/-- The targets whose writes BUSY = 1 drops (R144). -/
def Target.droppedWhileBusy (t : Target) : Prop := t = .ctrl ∨ t = .inLen ∨ ∃ i, t = .inEntry i

theorem hostWrite_of_droppedWhileBusy {a : Addr} {s : State} (h : (target s.cfg a).droppedWhileBusy)
    (hbusy : s.busy = true) (v : Word) : hostWrite a v s = dropWrite s := by
  obtain ht | ht | ⟨i, ht⟩ := h
  all_goals simp only [hostWrite, ht, hbusy, if_true]

/-! ### The addresses of each kind of target -/

theorem target_droppedWhileBusy {c : Config} {a : Addr}
    (h : a.toNat / 4 = 1 ∨ a.toNat / 4 = 4 ∨
      (0x400000 ≤ a.toNat ∧ a.toNat < 0x800000 ∧ a.toNat / 4 - 0x100000 < c.inDepth)) :
    (target c a).droppedWhileBusy := by
  obtain hctrl | hinLen | ⟨hlo, hhi, hdepth⟩ := h
  · exact .inl (target_of_register c (by omega) hctrl)
  · exact .inr (.inl (target_of_register c (by omega) hinLen))
  · exact .inr (.inr ⟨_, (target_of_inWindow c hlo hhi).trans (if_pos hdepth)⟩)

/-- Apart from the four writable registers and the IN window's entries, no word takes a write (R43). -/
theorem target_ignoresWrites {c : Config} {a : Addr} (hreg : a.toNat / 4 ∉ [1, 2, 4, 7])
    (hin : ¬ (0x400000 ≤ a.toNat ∧ a.toNat < 0x800000 ∧ a.toNat / 4 - 0x100000 < c.inDepth)) :
    (target c a).ignoresWrites := by
  by_cases hregisters : a.toNat < 0x20
  · rw [target_of_register c (by omega) rfl]
    apply registerAt_ignoresWrites
    simp only [List.mem_cons, List.not_mem_nil, or_false] at hreg ⊢
    omega
  by_cases houtWindow : 0x800000 ≤ a.toNat ∧ a.toNat < 0xC00000
  · exact target_outWindow_ignoresWrites c houtWindow.1 houtWindow.2
  · have hreserved : target c a = .reserved := target_of_reservedRange c (by omega)
    exact .inl (by simp [hreserved])

/-! ### The RESET turn -/

/-- A reset leaves an idle engine, which never starts a command by itself (R76, R139). -/
theorem engineTurn_resetTurn (s : State) : engineTurn (resetTurn s) = .next (resetTurn s) := engineTurn_idle rfl

theorem irq_resetTurn (s : State) : irq (resetTurn s) = false := irq_of_not_done rfl

end Sys2Proof.Machine
end

section
/-! PROOF. The obligations of 70_reset_and_hazards.md: host writes in the BUSY window, and a reset in it. -/

namespace Sys2Proof.Claims

open Sys2Proof.Machine

/-- Settles O37: each row of R144 is a kind of target, and its addresses are those of that kind. -/
theorem writesWhileBusy : Obligations.WritesWhileBusy := by
  intro a v s hbusy
  split_ifs with hdropped hstatus hirqEn
  · exact hostWrite_of_droppedWhileBusy (target_droppedWhileBusy hdropped) hbusy v
  · exact hostWrite_of_status (target_of_register s.cfg (by omega) hstatus) v
  · exact hostWrite_of_irqEn (target_of_register s.cfg (by omega) hirqEn) v
  · have hreg : a.toNat / 4 ∉ [1, 2, 4, 7] := by
      simp only [List.mem_cons, List.not_mem_nil, or_false]
      omega
    exact hostWrite_of_ignoresWrites (target_ignoresWrites hreg fun hin => hdropped (.inr (.inr hin))) v

/-- Settles O47: the RESET turn is `resetDevice` at a new moment, so each register has R35's value and BUSY = 0 leaves
the engine nothing to complete. -/
theorem resetAbandonsTheCommand : Obligations.ResetAbandonsTheCommand := by
  intro s ts hscript
  exact ⟨resetTurn { s with script := ts }, step_cons hscript, rfl, rfl, rfl, rfl, rfl, rfl, rfl, rfl, rfl, rfl, rfl, rfl,
    irq_resetTurn _, lookup_nil, lookup_nil, engineTurn_resetTurn _⟩

end Sys2Proof.Claims
end

section
/-! SUPPORT. The fields of a command word (30_encoding.md R60 to R62): where the encoder puts them, and the fields that
a row's mask fixes. -/

namespace Sys2Proof.Laws

/-! ### Where the encoder puts the operands (R73) -/

/-- A field put above the bits that are already there. -/
theorem or_shiftLeft_eq_add {low n : Nat} (h : low < 2 ^ n) (v : Nat) : low ||| v <<< n = low + v * 2 ^ n := by
  rw [Nat.or_comm, ← Nat.shiftLeft_add_eq_or_of_lt h, Nat.shiftLeft_eq, Nat.add_comm]

theorem encode_resize_toNat {inW outW lastW : Nat} (h : (Instr.resize inW outW lastW).wf = true) :
    (encode (.resize inW outW lastW)).toNat = 1 + inW * 2 ^ 8 + outW * 2 ^ 13 + lastW * 2 ^ 18 := by
  simp only [Instr.wf, Bool.and_eq_true, decide_eq_true_eq] at h
  obtain ⟨⟨hin, hout⟩, hlast⟩ := h
  rw [encode, encodeNat, or_shiftLeft_eq_add (n := 8) (by decide), or_shiftLeft_eq_add (n := 13) (by omega),
    or_shiftLeft_eq_add (n := 18) (by omega), BitVec.toNat_ofNat, Nat.mod_eq_of_lt (by omega)]

theorem encode_fwd_toNat {tier value : Nat} (h : (Instr.fwd tier value).wf = true) :
    (encode (.fwd tier value)).toNat = 4 + tier * 2 ^ 4 + value * 2 ^ 8 := by
  simp only [Instr.wf, Bool.and_eq_true, decide_eq_true_eq] at h
  obtain ⟨htier, hvalue⟩ := h
  rw [encode, encodeNat, or_shiftLeft_eq_add (n := 4) (by decide), or_shiftLeft_eq_add (n := 8) (by omega),
    BitVec.toNat_ofNat, Nat.mod_eq_of_lt (by omega)]

theorem encode_rev_toNat {cp : Nat} (h : (Instr.rev cp).wf = true) : (encode (.rev cp)).toNat = 5 + cp * 2 ^ 8 := by
  simp only [Instr.wf, decide_eq_true_eq] at h
  rw [encode, encodeNat, or_shiftLeft_eq_add (n := 8) (by decide), BitVec.toNat_ofNat, Nat.mod_eq_of_lt (by omega)]

theorem encode_of_noOperands {i : Instr} (hi : formatOf i = .n) : encode i = BitVec.ofNat 32 (opcodeOf i) := by
  cases i with
  | nop | encode | decode | clear => rfl
  | resize | fwd | rev => cases hi

/-! ### A command's own word -/

/-- A command is the one that the rows read off its own word: every operand is its slice of that word (R66 to R68). -/
theorem mem_rowCommands_encode {i : Instr} (h : i.wf = true) : i ∈ rowCommands (encode i) := by
  cases i with
  | nop | encode | decode | clear => exact mem_rowCommands_of_noOperands rfl _
  | resize inW outW lastW =>
    have hword := encode_resize_toNat h
    simp only [Instr.wf, Bool.and_eq_true, decide_eq_true_eq] at h
    simp only [rowCommands, Word.slice, hword, List.mem_cons, Instr.resize.injEq]
    omega
  | fwd tier value =>
    have hword := encode_fwd_toNat h
    simp only [Instr.wf, Bool.and_eq_true, decide_eq_true_eq] at h
    simp only [rowCommands, Word.slice, hword, List.mem_cons, Instr.fwd.injEq]
    omega
  | rev cp =>
    have hword := encode_rev_toNat h
    simp only [Instr.wf, decide_eq_true_eq] at h
    simp only [rowCommands, Word.slice, hword, List.mem_cons, Instr.rev.injEq]
    omega

theorem selectsRowOf_encode {i : Instr} (h : i.wf = true) : SelectsRowOf i (encode i) := by
  cases i with
  | nop => exact EncodesToItsRow.nop h
  | resize inW outW lastW => exact EncodesToItsRow.resize inW outW lastW h
  | encode => exact EncodesToItsRow.encode h
  | decode => exact EncodesToItsRow.decode h
  | fwd tier value => exact EncodesToItsRow.fwd tier value h
  | rev cp => exact EncodesToItsRow.rev cp h
  | clear => exact EncodesToItsRow.clear h

/-! ### The fields that a mask fixes -/

/-- A field that the mask covers is that field of the match (R63). -/
theorem slice_of_masked {w mask value : Word} {hi lo : Nat} (hcovered : mask.slice hi lo = 2 ^ (hi + 1 - lo) - 1)
    (h : w &&& mask = value) : w.slice hi lo = value.slice hi lo := by
  subst h
  unfold Word.slice at hcovered ⊢
  rw [BitVec.toNat_and, Nat.and_div_two_pow, Nat.and_mod_two_pow, hcovered, Nat.and_two_pow_sub_one_eq_mod,
    Nat.mod_mod]

/-- A word that selects the row of a command read off it is that command's encoding: the operands are the bits the mask
leaves open, and the mask fixes the others (R60 to R64). -/
theorem encode_of_selectsRowOf {w : Word} {i : Instr} (hi : i ∈ rowCommands w) (hsel : SelectsRowOf i w) :
    i.wf = true ∧ encode i = w := by
  have hlt := w.isLt
  cases i with
  | nop | encode | decode | clear =>
    exact ⟨rfl, (encode_of_noOperands rfl).trans ((selectsRowOf_iff_of_noOperands rfl w).1 hsel).symm⟩
  | resize inW outW lastW =>
    obtain ⟨rfl, rfl, rfl⟩ : inW = w.slice 12 8 ∧ outW = w.slice 17 13 ∧ lastW = w.slice 22 18 := by
      simpa [rowCommands] using hi
    have hwf : (Instr.resize (w.slice 12 8) (w.slice 17 13) (w.slice 22 18)).wf = true := by
      simp only [Instr.wf, Bool.and_eq_true, decide_eq_true_eq]
      exact ⟨⟨slice_lt w 12 8, slice_lt w 17 13⟩, slice_lt w 22 18⟩
    have hrow : w &&& Format.w.mask = 1 := (selects_iff _ _ w).1 hsel
    have hlow : w.slice 7 0 = 1 := slice_of_masked (by decide) hrow
    have hhigh : w.slice 31 23 = 0 := slice_of_masked (by decide) hrow
    refine ⟨hwf, BitVec.eq_of_toNat_eq ((encode_resize_toNat hwf).trans ?_)⟩
    simp only [Word.slice] at hlow hhigh ⊢
    omega
  | fwd tier value =>
    obtain ⟨rfl, rfl⟩ : tier = w.slice 7 4 ∧ value = w.slice 22 8 := by simpa [rowCommands] using hi
    have hwf : (Instr.fwd (w.slice 7 4) (w.slice 22 8)).wf = true := by
      simp only [Instr.wf, Bool.and_eq_true, decide_eq_true_eq]
      exact ⟨slice_lt w 7 4, slice_lt w 22 8⟩
    have hrow : w &&& Format.l.mask = 4 := (selects_iff _ _ w).1 hsel
    have hlow : w.slice 3 0 = 4 := slice_of_masked (by decide) hrow
    have hhigh : w.slice 31 23 = 0 := slice_of_masked (by decide) hrow
    refine ⟨hwf, BitVec.eq_of_toNat_eq ((encode_fwd_toNat hwf).trans ?_)⟩
    simp only [Word.slice] at hlow hhigh ⊢
    omega
  | rev cp =>
    obtain rfl : cp = w.slice 28 8 := by simpa [rowCommands] using hi
    have hwf : (Instr.rev (w.slice 28 8)).wf = true := by
      simp only [Instr.wf, decide_eq_true_eq]
      exact slice_lt w 28 8
    have hrow : w &&& Format.c.mask = 5 := (selects_iff _ _ w).1 hsel
    have hlow : w.slice 7 0 = 5 := slice_of_masked (by decide) hrow
    have hhigh : w.slice 31 29 = 0 := slice_of_masked (by decide) hrow
    refine ⟨hwf, BitVec.eq_of_toNat_eq ((encode_rev_toNat hwf).trans ?_)⟩
    simp only [Word.slice] at hlow hhigh ⊢
    omega

end Sys2Proof.Laws
end

section
/-! PROOF. The obligations of 30_encoding.md: the decoder and the encoder are inverse, and words of the spec. -/

namespace Sys2Proof.Claims

open Sys2Proof.Laws

/-- Settles O1: the word of a command selects the command's own row, and there each operand is its slice of the word. -/
theorem encodeThenDecode : Obligations.EncodeThenDecode :=
  fun i hwf => (decodeWord_eq_ok_iff (encode i) i).2 ⟨mem_rowCommands_encode hwf, selectsRowOf_encode hwf⟩

/-- Settles O2: a legal word matches a row, whose mask fixes every bit that is no operand's. -/
theorem decodeThenEncode : Obligations.DecodeThenEncode := by
  intro w i h
  obtain ⟨hi, hsel⟩ := (decodeWord_eq_ok_iff w i).1 h
  exact encode_of_selectsRowOf hi hsel

/-- Settles O4: the legal words are the encodings of their commands, and each illegal one is a word the decoder
evaluates. -/
theorem wordsOfTheSpecDecode : Obligations.WordsOfTheSpecDecode :=
  ⟨encodeThenDecode .nop rfl, encodeThenDecode (.resize 8 15 8) rfl, encodeThenDecode .encode rfl,
    encodeThenDecode .decode rfl, encodeThenDecode (.fwd 0 9266) rfl, encodeThenDecode (.rev 0x1BF) rfl,
    encodeThenDecode .clear rfl, by decide, by decide, by decide⟩

end Sys2Proof.Claims
end

section
/-! SUPPORT. What one step can do, said once over the turns (20_memory.md R51): the engine's turn, a RESET, one host
write, or a turn that touches no item of the device. Then what the host's turns leave unchanged. -/

namespace Sys2Proof.Machine

/-! ### The step by its turn -/

/-- A poll is a read of STATUS; while BUSY = 1 the engine's turn and the next poll come before the further turns. -/
theorem waitTurn_eq (s : State) :
    waitTurn s =
      { readTurn 7 statusAddr s with script := if s.busy then .engine :: .wait :: s.script else s.script } := by
  rw [waitTurn, readTurn_eq]
  split <;> rfl

/-- A skip touches the turns to come alone. -/
theorem skipTurn_eq (r : Fin 8) (mask : Word) (count : Nat) (s : State) :
    skipTurn r mask count s =
      { s with script := if s.hostRegs[r] &&& mask ≠ 0 then s.script.drop count else s.script } := by
  unfold skipTurn
  split <;> rfl

/-- `t` is `s` but for the model's own record of the run: every item of the device is the same. -/
def SameDevice (s t : State) : Prop := t = { s with hostRegs := t.hostRegs, script := t.script, draws := t.draws }

theorem readTurn_sameDevice (r : Fin 8) (a : Addr) (s : State) : SameDevice s (readTurn r a s) := by
  rw [readTurn_eq]
  rfl

theorem waitTurn_sameDevice (s : State) : SameDevice s (waitTurn s) := by
  rw [waitTurn_eq, readTurn_eq]
  rfl

theorem skipTurn_sameDevice (r : Fin 8) (mask : Word) (count : Nat) (s : State) :
    SameDevice s (skipTurn r mask count s) := by
  rw [skipTurn_eq]
  rfl

/-- What a turn of the host can do: one write, or nothing to the device. -/
theorem takeTurn_host_cases {x : Turn} (hengine : x ≠ .engine) (hreset : x ≠ .reset) (s : State) :
    (∃ a v, takeTurn x s = .next (hostWrite a v (newMoment s))) ∨ ∃ t, takeTurn x s = .next t ∧ SameDevice s t := by
  cases x with
  | write a v => exact .inl ⟨a, sourceValue s v, rfl⟩
  | read r a => exact .inr ⟨_, rfl, readTurn_sameDevice r a s⟩
  | wait => exact .inr ⟨_, rfl, waitTurn_sameDevice s⟩
  | skipIfSet r mask count => exact .inr ⟨_, rfl, skipTurn_sameDevice r mask count s⟩
  | engine => exact absurd rfl hengine
  | reset => exact absurd rfl hreset

/-- The one inversion of `step`, over the state with the turn taken off. -/
theorem step_cases (s : State) :
    ∃ ts, let u := { s with script := ts }
      step s = engineTurn u ∨ step s = .next (resetTurn u) ∨ (∃ a v, step s = .next (hostWrite a v (newMoment u))) ∨
        ∃ t, step s = .next t ∧ SameDevice u t := by
  cases hs : s.script with
  | nil => exact ⟨s.script, .inl (step_nil hs)⟩
  | cons x ts =>
    refine ⟨ts, ?_⟩
    rw [step_cons hs]
    by_cases hengine : x = .engine
    · exact .inl (hengine ▸ rfl)
    by_cases hreset : x = .reset
    · exact .inr (.inl (hreset ▸ rfl))
    exact .inr (.inr (takeTurn_host_cases hengine hreset _))

/-! ### The results and the error report, which no host turn writes -/

/-- The error report and the results are the same (R20, R22, R24, R26, R27, R32). -/
structure KeepsResults (s t : State) : Prop where
  err : t.err = s.err
  errCode : t.errCode = s.errCode
  errPos : t.errPos = s.errPos
  outLen : t.outLen = s.outLen
  lkRes : t.lkRes = s.lkRes
  outMem : t.outMem = s.outMem

theorem hostWrite_keepsResults (a : Addr) (v : Word) (s : State) : KeepsResults s (hostWrite a v s) := by
  obtain ⟨-, h⟩ | ⟨-, h⟩ | ⟨i, -, h⟩ | ⟨-, h⟩ | ⟨-, h⟩ | ⟨-, h⟩ := hostWrite_cases a v s <;> rw [h]
  case inl | inr.inl | inr.inr.inl => split <;> exact ⟨rfl, rfl, rfl, rfl, rfl, rfl⟩
  all_goals exact ⟨rfl, rfl, rfl, rfl, rfl, rfl⟩

theorem SameDevice.keepsResults {s t : State} (h : SameDevice s t) : KeepsResults s t := by
  rw [h]
  exact ⟨rfl, rfl, rfl, rfl, rfl, rfl⟩

/-! ### The command in flight, whose inputs no host turn changes -/

/-- The command in flight in `t` is that of `s`, with the same inputs (R52). -/
structure StaysInFlight (s t : State) : Prop where
  busy : t.busy = true
  cmdl : t.cmdl = s.cmdl
  inLen : t.inLen = s.inLen
  inMem : t.inMem = s.inMem
  epoch : t.epoch = s.epoch
  cfg : t.cfg = s.cfg

/-- BUSY = 1 drops every write that would reach an input (R144). -/
theorem hostWrite_staysInFlight {s : State} (hbusy : s.busy = true) (a : Addr) (v : Word) :
    StaysInFlight s (hostWrite a v s) := by
  obtain ⟨-, h⟩ | ⟨-, h⟩ | ⟨i, -, h⟩ | ⟨-, h⟩ | ⟨-, h⟩ | ⟨-, h⟩ := hostWrite_cases a v s <;> rw [h]
  case inl | inr.inl | inr.inr.inl => rw [if_pos hbusy]; exact ⟨hbusy, rfl, rfl, rfl, rfl, rfl⟩
  all_goals exact ⟨hbusy, rfl, rfl, rfl, rfl, rfl⟩

theorem SameDevice.staysInFlight {s t : State} (h : SameDevice s t) (hbusy : s.busy = true) : StaysInFlight s t := by
  rw [h]
  exact ⟨hbusy, rfl, rfl, rfl, rfl, rfl⟩

end Sys2Proof.Machine
end

section
/-! SUPPORT. The invariant, operation by operation: the configuration and the buffers (R7, R31, R32), the lifecycle
flags (R19), the report (R20 to R24), and the results (R26, R27, R41). -/

namespace Sys2Proof.Machine

/-- The reset state of a legal device lists no entry and reports nothing (R35). -/
theorem invariant_resetOf {c : Config} (h : configLegal c = true) : Invariant (State.resetOf c) where
  legal := h
  inCanonical := rfl
  outCanonical := rfl
  outBounded := Nat.zero_le _
  outHeld := fun _ hk => absurd hk (Nat.not_lt_zero _)
  busyNotDone := fun _ => rfl
  errHasCode := by simp [State.resetOf]
  codeNamed := Nat.zero_le _
  posOfError := fun _ => rfl
  hitOrZero := .inl rfl

/-! ### Reset and the host -/

theorem Invariant.resetTurn {s : State} (h : Invariant s) : Invariant (resetTurn s) :=
  { invariant_resetOf h.legal with }

/-- The clauses on the results and the report come with these items; the buffer of inputs and DONE in the BUSY window
are left to show. -/
theorem Invariant.of_keepsResults {s t : State} (h : Invariant s) (hkept : KeepsResults s t) (hcfg : t.cfg = s.cfg)
    (hin : Memory.wf s.cfg.inDepth t.inMem = true) (hdone : t.busy = true → t.done = false) : Invariant t := by
  obtain ⟨herr, hcode, hpos, hlen, hlk, hout⟩ := hkept
  constructor
  case legal => exact hcfg ▸ h.legal
  case inCanonical => exact hcfg ▸ hin
  case outCanonical => exact hcfg ▸ hout ▸ h.outCanonical
  case outBounded => exact hcfg ▸ hlen ▸ h.outBounded
  case outHeld => exact hlen ▸ hout ▸ h.outHeld
  case busyNotDone => exact hdone
  case errHasCode => exact herr ▸ hcode ▸ h.errHasCode
  case codeNamed => exact hcode ▸ h.codeNamed
  case posOfError => exact herr ▸ hpos ▸ h.posOfError
  case hitOrZero => exact hlk ▸ h.hitOrZero

/-- An accepted write goes to an entry of the buffer (R40). -/
theorem hostWrite_inMem_wf {s : State} (h : Memory.wf s.cfg.inDepth s.inMem = true) (a : Addr) (v : Word) :
    Memory.wf s.cfg.inDepth (hostWrite a v s).inMem = true := by
  obtain ⟨-, hs⟩ | ⟨-, hs⟩ | ⟨i, ht, hs⟩ | ⟨-, hs⟩ | ⟨-, hs⟩ | ⟨-, hs⟩ := hostWrite_cases a v s <;> rw [hs]
  case inr.inr.inl =>
    split
    · exact h
    · exact store_wf (target_inEntry_lt ht) h
  case inl | inr.inl => split <;> exact h
  all_goals exact h

/-- Acceptance clears DONE, and nothing but a completion sets it (R19, R75). -/
theorem hostWrite_busyNotDone {s : State} (h : s.busy = true → s.done = false) (a : Addr) (v : Word)
    (hbusy : (hostWrite a v s).busy = true) : (hostWrite a v s).done = false := by
  obtain ⟨-, hs⟩ | ⟨-, hs⟩ | ⟨i, -, hs⟩ | ⟨-, hs⟩ | ⟨-, hs⟩ | ⟨-, hs⟩ := hostWrite_cases a v s <;> rw [hs] at hbusy ⊢
  case inl =>
    split
    case isTrue hb => exact h hb
    case isFalse => rfl
  case inr.inl | inr.inr.inl =>
    split
    case isTrue hb => exact h hb
    case isFalse hb => rw [if_neg hb] at hbusy; exact h hbusy
  case inr.inr.inr.inl => exact (congrArg (writeOneToClear · _) (h hbusy)).trans (Bool.false_and _)
  all_goals exact h hbusy

theorem Invariant.newMoment {s : State} (h : Invariant s) : Invariant (newMoment s) := { h with }

theorem Invariant.hostWrite {s : State} (h : Invariant s) (a : Addr) (v : Word) : Invariant (hostWrite a v s) :=
  h.of_keepsResults (hostWrite_keepsResults a v s) (hostWrite_cfg a v s) (hostWrite_inMem_wf h.inCanonical a v)
    (hostWrite_busyNotDone h.busyNotDone a v)

theorem Invariant.of_sameDevice {s t : State} (h : Invariant s) (hsame : SameDevice s t) : Invariant t := by
  rw [hsame]
  exact { h with }

/-! ### The writes of a completion (R77, R80, R121) -/

theorem Invariant.finish {s : State} (h : Invariant s) : Invariant (finish s) :=
  { h with busyNotDone := fun hbusy => by cases hbusy }

theorem Invariant.reportSuccess {s : State} (h : Invariant s) : Invariant (reportSuccess s) :=
  { h with
    errHasCode := by simp
    codeNamed := Nat.zero_le _
    posOfError := fun _ => rfl }

theorem Invariant.reportError {s : State} (h : Invariant s) (e : Raised) : Invariant (reportError e s) :=
  { h with
    errHasCode := by simp
    codeNamed := errCodeOf_le e.err
    posOfError := fun herr => by cases herr }

theorem Invariant.clearResults {s : State} (h : Invariant s) :
    Invariant { s with outLen := 0, lkRes := 0, haz := false } :=
  { h with
    outBounded := Nat.zero_le _
    outHeld := fun _ hk => absurd hk (Nat.not_lt_zero _)
    hitOrZero := .inl rfl }

theorem Invariant.dropOutput {s : State} (h : Invariant s) : Invariant (dropOutput s) :=
  { h with
    outCanonical := rfl
    outBounded := Nat.zero_le _
    outHeld := fun _ hk => absurd hk (Nat.not_lt_zero _) }

theorem Invariant.writeOutput {s : State} (h : Invariant s) {out : List Word} (hfit : out.length ≤ s.cfg.outDepth) :
    Invariant { s with outMem := Memory.storeAll s.outMem 0 out, outLen := BitVec.ofNat 32 out.length } :=
  have hlen : (BitVec.ofNat 32 out.length).toNat ≤ out.length := Nat.mod_le _ _
  { h with
    outCanonical := storeAll_wf (d := s.cfg.outDepth) (by omega) h.outCanonical
    outBounded := hlen.trans hfit
    outHeld := fun k hk => by
      have hk' : k < out.length := hk.trans_le hlen
      rw [lookup_storeAll_zero, if_pos hk', List.getElem?_eq_getElem hk', Option.isSome_some] }

theorem Invariant.writeLkRes {s : State} (h : Invariant s) {w : Word} (hw : w = 0 ∨ w.getLsbD 31 = true) :
    Invariant { s with lkRes := w } :=
  { h with hitOrZero := hw }

theorem Invariant.raiseError {s : State} (h : Invariant s) (c : CommandClass) (e : Raised) :
    Invariant (raiseError c e s) := by
  cases c with
  | buffer => exact (h.reportError e).dropOutput.finish
  | lookup => exact ((h.reportError e).writeLkRes (.inl rfl)).finish
  | none => exact (h.reportError e).finish

theorem Invariant.completeBuffer {s : State} (h : Invariant s) {r : Except Raised (List Word)}
    (hfit : ∀ out, r = .ok out → out.length ≤ s.cfg.outDepth) : Invariant (completeBuffer r s) := by
  obtain ⟨out, hr, hs⟩ | ⟨e, -, hs⟩ := completeBuffer_cases r s <;> rw [hs]
  · exact (h.writeOutput (hfit out hr)).reportSuccess.finish
  · exact h.raiseError .buffer e

theorem Invariant.completeLookup {s : State} (h : Invariant s) {r : Except Raised Word}
    (hhit : ∀ w, r = .ok w → w.getLsbD 31 = true) : Invariant (completeLookup r s) := by
  obtain ⟨w, hr, hs⟩ | ⟨e, -, hs⟩ := completeLookup_cases r s <;> rw [hs]
  · exact (h.writeLkRes (.inr (hhit w hr))).reportSuccess.finish
  · exact h.raiseError .lookup e

/-! ### The engine -/

theorem Invariant.exec {s t : State} {i : Instr} (h : Invariant s) (ht : exec i s = .next t) : Invariant t := by
  obtain hs | hs | ⟨r, hs, hfit⟩ | ⟨r, hs, hhit⟩ := exec_cases i s <;> cases hs.symm.trans ht
  · exact h.finish
  · exact h.clearResults.reportSuccess.finish
  · exact h.completeBuffer hfit
  · exact h.completeLookup hhit

theorem Invariant.completeCommand {s t : State} (h : Invariant s) (ht : completeCommand s = .next t) :
    Invariant t := by
  obtain ⟨i, -, hs⟩ | ⟨e, -, hs⟩ := completeCommand_cases s
  · exact h.exec (hs.symm.trans ht)
  · cases hs.symm.trans ht
    exact h.raiseError .none _

theorem Invariant.engineTurn {s t : State} (h : Invariant s) (ht : engineTurn s = .next t) : Invariant t := by
  cases hbusy : s.busy with
  | false => cases (engineTurn_idle hbusy).symm.trans ht; exact h
  | true => exact h.newMoment.completeCommand ((engineTurn_busy hbusy).symm.trans ht)

end Sys2Proof.Machine
end

section
/-! PROOF. The obligations on the whole machine: its invariant, that it never stops, and what the BUSY window and the
host's turns leave unchanged. -/

namespace Sys2Proof.Claims

open Sys2Proof.Machine

/-- Settles O49: a step is the engine's turn, a RESET, one host write or no change of the device, and each keeps the
invariant. -/
theorem stepKeepsTheInvariant : Obligations.StepKeepsTheInvariant := by
  intro s t h ht
  obtain ⟨ts, hengine | hreset | ⟨a, v, hwrite⟩ | ⟨u, hu, hsame⟩⟩ := step_cases s
  all_goals have hoff : Invariant { s with script := ts } := { h with }
  · exact hoff.engineTurn (hengine.symm.trans ht)
  · cases hreset.symm.trans ht
    exact hoff.resetTurn
  · cases hwrite.symm.trans ht
    exact hoff.newMoment.hostWrite a v
  · cases hu.symm.trans ht
    exact hoff.of_sameDevice hsame

/-- Settles O48: the reset state meets the invariant, and TEST_ROM is legal. -/
theorem invariantHoldsAtReset : Obligations.InvariantHoldsAtReset :=
  ⟨fun _ => invariant_resetOf, invariant_resetOf testDevice_legal⟩

/-- Settles O50: the engine's turn, idle or busy, and every other turn answers a next state. -/
theorem everyStepProceeds : Obligations.EveryStepProceeds := by
  intro s
  obtain ⟨ts, hengine | hreset | ⟨a, v, hwrite⟩ | ⟨t, ht, -⟩⟩ := step_cases s
  · obtain ⟨-, hidle⟩ | ⟨-, t, hbusy, -⟩ := engineTurn_cases { s with script := ts }
    · exact ⟨_, hengine.trans hidle⟩
    · exact ⟨t, hengine.trans hbusy⟩
  · exact ⟨_, hreset⟩
  · exact ⟨_, hwrite⟩
  · exact ⟨t, ht⟩

/-- Settles O52: a completion and a RESET end the window, and the host's turns keep the command in flight. -/
theorem inputsAreFrozenWhileBusy : Obligations.InputsAreFrozenWhileBusy := by
  intro s t hbusy ht hstill
  suffices hkept : StaysInFlight s t from
    ⟨hkept.cmdl, hkept.inLen, hkept.inMem, hkept.cfg, inEntry_congr hkept.inMem hkept.epoch⟩
  obtain ⟨ts, hengine | hreset | ⟨a, v, hwrite⟩ | ⟨u, hu, hsame⟩⟩ := step_cases s
  · obtain ⟨hidle, -⟩ | ⟨-, u, hu, hdone⟩ := engineTurn_cases { s with script := ts }
    · cases hidle.symm.trans hbusy
    · cases (hengine.trans hu).symm.trans ht
      cases hdone.busy.symm.trans hstill
  · cases hreset.symm.trans ht
    cases hstill
  · cases hwrite.symm.trans ht
    exact { hostWrite_staysInFlight (s := newMoment { s with script := ts }) hbusy a v with }
  · cases hu.symm.trans ht
    exact { hsame.staysInFlight hbusy with }

/-- Settles O53: a host turn is one host write, which reaches no result, or no change of the device. -/
theorem onlyCompletionOrResetPublishes : Obligations.OnlyCompletionOrResetPublishes := by
  intro s t turn ts hscript hengine hreset ht
  suffices hkept : KeepsResults s t from
    ⟨hkept.err, hkept.errCode, hkept.errPos, hkept.outLen, hkept.lkRes, hkept.outMem⟩
  rw [step_cons hscript] at ht
  obtain ⟨a, v, hwrite⟩ | ⟨u, hu, hsame⟩ := takeTurn_host_cases hengine hreset { s with script := ts }
  · cases hwrite.symm.trans ht
    exact { hostWrite_keepsResults a v (newMoment { s with script := ts }) with }
  · cases hu.symm.trans ht
    exact { hsame.keepsResults with }

end Sys2Proof.Claims
end

section
/-! SUPPORT. Host reads by target (20_memory.md R39 to R42), and that an access looks at the word index alone (R38). -/

namespace Sys2Proof.Machine

/-! ### The word an address selects -/

/-- Clearing `A[1:0]` leaves `A[23:2]` (R38). -/
theorem wordIndex_and_mask (a : Addr) : wordIndex (a &&& 0xFFFFFC) = wordIndex a := by
  have hdiv : (0xFFFFFC : Addr).toNat / 2 ^ 2 = 2 ^ 22 - 1 := by decide
  have hlt : a.toNat / 2 ^ 2 < 2 ^ 22 := by have := a.isLt; omega
  show (a &&& 0xFFFFFC).toNat / 2 ^ 2 = a.toNat / 2 ^ 2
  rw [BitVec.toNat_and, Nat.and_div_two_pow, hdiv, Nat.and_two_pow_sub_one_of_lt_two_pow hlt]

theorem target_congr {a b : Addr} (h : wordIndex a = wordIndex b) (c : Config) : target c a = target c b := by
  unfold target
  rw [h]

theorem freeAt_congr {a b : Addr} (h : wordIndex a = wordIndex b) (s : State) : freeAt a s = freeAt b s := by
  unfold freeAt
  rw [h]

theorem hostWrite_congr {a b : Addr} (h : wordIndex a = wordIndex b) (v : Word) (s : State) :
    hostWrite a v s = hostWrite b v s := by
  unfold hostWrite
  rw [target_congr h]

theorem hostRead_congr {a b : Addr} (h : wordIndex a = wordIndex b) (s : State) : hostRead a s = hostRead b s := by
  unfold hostRead statusRead unlessBusy outEntryRead
  rw [target_congr h, freeAt_congr h]

/-- An address of the OUT window, as the free values know it. -/
theorem freeAt_outAddr (s : State) {k : Nat} (h : k < 2 ^ 20) :
    freeAt (BitVec.ofNat 24 (0x800000 + 4 * k)) s = Config.freeRead s.draws (0x800000 + 4 * k) := by
  have hbyte : 4 * wordIndex (BitVec.ofNat 24 (0x800000 + 4 * k)) = 0x800000 + 4 * k := by
    rw [wordIndex, BitVec.toNat_ofNat, Nat.mod_eq_of_lt (by omega)]
    omega
  rw [freeAt, hbyte]

/-! ### The registers -/

@[simp] theorem hostRead_id (s : State) : hostRead 0#24 s = idValue := rfl
@[simp] theorem hostRead_ctrl (s : State) : hostRead 4#24 s = 0 := rfl
@[simp] theorem hostRead_status (s : State) : hostRead 8#24 s = statusRead 8#24 s := rfl
@[simp] theorem hostRead_errPos (s : State) : hostRead 12#24 s = unlessBusy 12#24 s s.errPos := rfl
@[simp] theorem hostRead_inLen (s : State) : hostRead 16#24 s = s.inLen := rfl
@[simp] theorem hostRead_outLen (s : State) : hostRead 20#24 s = unlessBusy 20#24 s s.outLen := rfl
@[simp] theorem hostRead_lkRes (s : State) : hostRead 24#24 s = unlessBusy 24#24 s s.lkRes := rfl
@[simp] theorem hostRead_irqEn (s : State) : hostRead 28#24 s = irqEnWord s.ie := rfl

theorem irqEnRead_toNat (s : State) : (hostRead 28#24 s).toNat = s.ie.toNat := by
  rw [hostRead_irqEn, irqEnWord_toNat]

theorem unlessBusy_idle {s : State} (h : s.busy = false) (a : Addr) (v : Word) : unlessBusy a s v = v := by
  simp [unlessBusy, h]

theorem statusRead_idle {s : State} (h : s.busy = false) (a : Addr) :
    statusRead a s = statusWord s.busy s.done s.err s.haz s.errCode := by
  simp [statusRead, h]

/-- In the BUSY window ERR and ERRCODE are drawn, and the other bits of STATUS are as they are (R145). -/
theorem exists_statusRead_busy {s : State} (h : s.busy = true) (a : Addr) :
    ∃ err code, statusRead a s = statusWord s.busy s.done err s.haz code :=
  ⟨_, _, if_pos h⟩

theorem hostWrite_inLen_idle {s : State} (h : s.busy = false) (v : Word) :
    hostWrite 0x000010 v s = { s with inLen := v } := by
  simp [hostWrite, h]

/-! ### The windows -/

theorem hostRead_of_inEntry {a : Addr} {s : State} {i : Nat} (h : target s.cfg a = .inEntry i) :
    hostRead a s = inEntry s i := by
  simp only [hostRead, h]

theorem hostWrite_of_inEntry_idle {a : Addr} {s : State} {i : Nat} (h : target s.cfg a = .inEntry i)
    (hidle : s.busy = false) (v : Word) : hostWrite a v s = { s with inMem := Memory.store s.inMem i v } := by
  simp [hostWrite, h, hidle]

theorem inEntry_of_lookup {s : State} {i : Nat} {v : Word} (h : Memory.lookup s.inMem i = some v) :
    inEntry s i = v := by
  simp [inEntry, h]

theorem inEntry_store_same (s : State) (i : Nat) (v : Word) :
    inEntry { s with inMem := Memory.store s.inMem i v } i = v :=
  inEntry_of_lookup (lookup_store_same s.inMem i v)

theorem inEntry_store_other (s : State) {i j : Nat} (v : Word) (h : j ≠ i) :
    inEntry { s with inMem := Memory.store s.inMem i v } j = inEntry s j := by
  simp only [inEntry, lookup_store_other s.inMem v h]

/-- A result word is visible below OUT_LEN while BUSY = 0 (R41). -/
theorem outEntryRead_of_result {s : State} {a : Addr} {k : Nat} {w : Word} (hidle : s.busy = false)
    (hk : k < s.outLen.toNat) (h : Memory.lookup s.outMem k = some w) : outEntryRead a k s = w := by
  simp [outEntryRead, hidle, hk, h]

/-- Any other read of an output entry is unspecified (R32, R145). -/
theorem outEntryRead_of_noResult {s : State} {k : Nat} (h : s.busy = true ∨ s.outLen.toNat ≤ k) (a : Addr) :
    outEntryRead a k s = freeAt a s := by
  refine if_neg fun hvisible => ?_
  simp only [Bool.and_eq_true, Bool.not_eq_true', decide_eq_true_eq] at hvisible
  obtain ⟨hidle, hk⟩ := hvisible
  obtain hbusy | hle := h
  · cases hidle.symm.trans hbusy
  · omega

/-- A read looks at no item of the model's own but the moment. -/
theorem hostRead_of_sameDevice {s t : State} (h : SameDevice s t) (hdraws : t.draws = s.draws) (a : Addr) :
    hostRead a t = hostRead a s := by
  rw [h, hdraws]
  rfl

end Sys2Proof.Machine
end

section
/-! PROOF. The obligations of 10_state.md and 20_memory.md on host accesses: registers, windows and low address bits. -/

namespace Sys2Proof.Claims

open Sys2Proof.Machine

/-- Settles O34: an access looks at an address through its word index, which has no low address bits. -/
theorem lowAddressBitsAreIgnored : Obligations.LowAddressBitsAreIgnored :=
  fun a v s =>
    have hword := (wordIndex_and_mask a).symm
    ⟨hostRead_congr hword s, hostWrite_congr hword v s⟩

/-- Settles O40: IN_LEN, IRQEN and the entries read as in any state; the invariant has DONE 0 while BUSY = 1. -/
theorem definedReadsWhileBusy : Obligations.DefinedReadsWhileBusy := by
  intro s hinv hbusy
  refine ⟨hostRead_id s, hostRead_ctrl s, ?status, hostRead_inLen s, irqEnRead_toNat s, fun i hi => ?entry⟩
  case status =>
    obtain ⟨err, code, hstatus⟩ := exists_statusRead_busy hbusy 8#24
    refine ⟨err.toNat, code.toNat, Bool.toNat_lt err, code.isLt, (congrArg BitVec.toNat hstatus).trans ?_⟩
    rw [statusWord_toNat, hbusy, hinv.busyNotDone hbusy]
    simp
  case entry =>
    have hdepth := inDepth_le_of_legal hinv.legal
    exact hostRead_of_inEntry ((target_inAddr s.cfg (by omega)).trans (if_pos hi))

/-- Settles O42: below IN_DEPTH the word is an entry of the buffer, and from there on it is reserved. -/
theorem inWindowReadsBack : Obligations.InWindowReadsBack := by
  intro s i v _ hidle hi a
  have htarget : target s.cfg a = if i < s.cfg.inDepth then .inEntry i else .reserved := target_inAddr s.cfg hi
  split
  case isTrue hin =>
    rw [if_pos hin] at htarget
    rw [hostWrite_of_inEntry_idle htarget hidle]
    refine ⟨Eq.trans (hostRead_of_inEntry ?_) (inEntry_store_same s i v), fun j hj => inEntry_store_other s v hj, rfl⟩
    exact htarget
  case isFalse hout =>
    rw [if_neg hout] at htarget
    exact ⟨hostRead_of_reserved htarget, hostWrite_of_ignoresWrites (.inl (by simp [htarget])) v⟩

/-- Settles O43: the window takes no write; the invariant has a word in every entry below OUT_LEN. -/
theorem outWindowReadsResults : Obligations.OutWindowReadsResults := by
  intro s k v hinv hk a
  have htarget : target s.cfg a = if k < s.cfg.outDepth then .outEntry k else .reserved := target_outAddr s.cfg hk
  have entry (hin : k < s.cfg.outDepth) : hostRead a s = outEntryRead a k s :=
    hostRead_of_outEntry (htarget.trans (if_pos hin))
  refine ⟨hostWrite_of_ignoresWrites ?ignored v, fun hin hidle hlen => ?result, fun hin hno => ?unspecified,
    fun hout => hostRead_of_reserved (htarget.trans (if_neg (not_lt.2 hout)))⟩
  case ignored =>
    have ha : a.toNat = 0x800000 + 4 * k := Nat.mod_eq_of_lt (by omega)
    exact target_outWindow_ignoresWrites s.cfg (by omega) (by omega)
  case result =>
    obtain ⟨w, hw⟩ := Option.isSome_iff_exists.1 (hinv.outHeld k hlen)
    rw [entry hin, outEntryRead_of_result hidle hlen hw, hw]
  case unspecified => rw [entry hin, outEntryRead_of_noResult hno, freeAt_outAddr s hk]

/-- Settles O38: each write reaches its own register, and IN_LEN and IRQEN read back what they hold. -/
theorem registerWritesWhileIdle : Obligations.RegisterWritesWhileIdle := by
  intro v s hidle
  have hinLen := hostWrite_inLen_idle hidle v
  refine ⟨hinLen, ?inLenBack, hostWrite_status v s, hostWrite_irqEn v s, ?irqEnBack⟩
  case inLenBack => rw [hinLen]; rfl
  case irqEnBack =>
    refine BitVec.eq_of_toNat_eq ((irqEnWord_toNat (v.getLsbD 0)).trans ?_)
    rw [BitVec.getLsbD, Nat.toNat_testBit, pow_zero, Nat.div_one]
    exact (Nat.and_one_is_mod v.toNat).symm

/-- Settles O39: outside the BUSY window every register reads what it holds. -/
theorem registerReadsWhileIdle : Obligations.RegisterReadsWhileIdle := by
  intro s hidle
  have held (a : Addr) (v : Word) : unlessBusy a s v = v := unlessBusy_idle hidle a v
  refine ⟨hostRead_id s, hostRead_ctrl s, ?status, (hostRead_errPos s).trans (held _ _), hostRead_inLen s,
    (hostRead_outLen s).trans (held _ _), (hostRead_lkRes s).trans (held _ _), irqEnRead_toNat s⟩
  case status =>
    have hstatus := (hostRead_status s).trans (statusRead_idle hidle 8#24)
    refine (congrArg BitVec.toNat hstatus).trans ?_
    rw [statusWord_toNat, hidle]
    simp

end Sys2Proof.Claims
end

section
/-! SUPPORT. Each turn as one step (20_memory.md R50, R51; 30_encoding.md R74; 40_control.md R75, R76). -/

namespace Sys2Proof.Machine

/-- The step over a write turn (R50). -/
theorem step_write {s : State} {a : Addr} {v : Source} {ts : List Turn} (h : s.script = .write a v :: ts) :
    step s = .next (hostWrite a (sourceValue s v) { s with script := ts, draws := s.draws + 1 }) := by
  rw [step_cons h]
  cases v <;> rfl

/-- A CTRL write while BUSY = 0 issues its word (R75). -/
theorem step_ctrl_idle {s : State} {w : Word} {ts : List Turn} (h : s.script = .write 0x000004 (.imm w) :: ts)
    (hidle : s.busy = false) :
    step s = .next { s with cmdl := w, busy := true, done := false, script := ts, draws := s.draws + 1 } :=
  (step_write h).trans
    (congrArg Host.Outcome.next (hostWrite_ctrl_idle (s := { s with script := ts, draws := s.draws + 1 }) hidle w))

/-- The step over a read turn: only a busy device begins a new moment (R145). -/
theorem step_read {s : State} {r : Fin 8} {a : Addr} {ts : List Turn} (h : s.script = .read r a :: ts) :
    step s = .next { s with
      hostRegs := s.hostRegs.set r (hostRead a s), script := ts,
      draws := if s.busy then s.draws + 1 else s.draws } := by
  rw [step_cons h]
  exact congrArg Host.Outcome.next (readTurn_eq r a { s with script := ts })

/-- The step over a poll of WAIT. -/
theorem step_wait {s : State} {ts : List Turn} (h : s.script = .wait :: ts) :
    step s = .next { s with
      hostRegs := s.hostRegs.set 7 (hostRead statusAddr s),
      script := if s.busy then .engine :: .wait :: ts else ts,
      draws := if s.busy then s.draws + 1 else s.draws } := by
  rw [step_cons h]
  refine congrArg Host.Outcome.next ((waitTurn_eq { s with script := ts }).trans ?_)
  rw [readTurn_eq]
  rfl

/-- A poll that finds BUSY = 1 lets the engine move and polls again. -/
theorem step_wait_busy {s : State} {ts : List Turn} (h : s.script = .wait :: ts) (hbusy : s.busy = true) :
    step s = .next { s with
      hostRegs := s.hostRegs.set 7 (hostRead statusAddr s), script := .engine :: .wait :: ts,
      draws := s.draws + 1 } := by
  rw [step_wait h, if_pos hbusy, if_pos hbusy]

/-- A poll that finds BUSY = 0 ends WAIT. -/
theorem step_wait_idle {s : State} {ts : List Turn} (h : s.script = .wait :: ts) (hidle : s.busy = false) :
    step s = .next { s with script := ts, hostRegs := s.hostRegs.set 7 (hostRead statusAddr s) } := by
  simp [step_wait h, hidle]

theorem step_skipIfSet {s : State} {r : Fin 8} {mask : Word} {count : Nat} {ts : List Turn}
    (h : s.script = .skipIfSet r mask count :: ts) :
    step s = .next { s with script := if s.hostRegs[r] &&& mask ≠ 0 then ts.drop count else ts } := by
  rw [step_cons h]
  exact congrArg Host.Outcome.next (skipTurn_eq r mask count { s with script := ts })

theorem completeCommand_of_legal {s : State} {i : Instr} (h : decodeWord s.cmdl = .ok i) :
    completeCommand s = exec i s := by
  rw [completeCommand, h]

theorem engineTurn_of_legal {s : State} {i : Instr} (hbusy : s.busy = true) (h : decodeWord s.cmdl = .ok i) :
    engineTurn s = exec i (newMoment s) :=
  (engineTurn_busy hbusy).trans (completeCommand_of_legal (s := newMoment s) h)

/-- The step over the engine's turn runs the command in flight (R76). -/
theorem step_engine_of_legal {s : State} {i : Instr} {ts : List Turn} (h : s.script = .engine :: ts)
    (hbusy : s.busy = true) (hi : decodeWord s.cmdl = .ok i) :
    step s = exec i { s with script := ts, draws := s.draws + 1 } :=
  (step_cons h).trans (engineTurn_of_legal (s := { s with script := ts }) hbusy hi)

/-- A number below 2^32 is a word of the table exactly as the decoder says. -/
theorem decodeWord_of_decodeTableWord {w : Nat} {i : Instr} (hw : w < 2 ^ 32) (h : decodeTableWord 32 w = some i) :
    decodeWord (BitVec.ofNat 32 w) = .ok i := by
  rw [decodeTableWord, Nat.mod_eq_of_lt hw, if_pos hw] at h
  cases hd : decodeWord (BitVec.ofNat 32 w) with
  | ok j => simpa [hd] using h
  | error e => simp [hd] at h

end Sys2Proof.Machine
end

section
/-! PROOF. The obligations on single turns: the engine's, and the host's reads, polls, writes and skips; and the
building of a device. -/

namespace Sys2Proof.Claims

open Sys2Proof.Machine

/-- Settles O6: the engine moves in each of the three cases, and CMDL holds the word that decodes to i. -/
theorem stepRunsTheDecodedCommand : Obligations.StepRunsTheDecodedCommand := by
  refine ⟨fun s i hbusy hi => ⟨fun hs => ?noTurn, fun ts hs => step_engine_of_legal hs hbusy hi⟩,
    fun s w i hw hi => ?fetched⟩
  case noTurn => exact (step_nil hs).trans (engineTurn_of_legal hbusy hi)
  case fetched =>
    have hword : decodeWord (BitVec.ofNat 32 (w % 2 ^ 32)) = .ok i := by
      rw [Nat.mod_eq_of_lt hw]
      exact decodeWord_of_decodeTableWord hw hi
    rw [step_engine_of_legal (s := s.withFetchWord 32 w) rfl rfl hword, State.withFetchWord, Nat.mod_eq_of_lt hw]
    rfl

/-- Settles O7: the engine's turn is the identity while BUSY = 0. -/
theorem idleEngineDoesNothing : Obligations.IdleEngineDoesNothing :=
  fun s hidle => ⟨fun hs => (step_nil hs).trans (engineTurn_idle hidle),
    fun ts hs => (step_cons hs).trans (engineTurn_idle (s := { s with script := ts }) hidle)⟩

/-- Settles O18: `powerUp` asks for exactly the legal values of R7. -/
theorem onlyLegalParametersPowerUp : Obligations.OnlyLegalParametersPowerUp := by
  intro c
  have hlegal : configLegal c = true ↔
      romWf c = true ∧ 1 ≤ c.inDepth ∧ c.inDepth ≤ 2 ^ 20 ∧ 1 ≤ c.outDepth ∧ c.outDepth ≤ 2 ^ 20 := by
    rw [configLegal_iff, and_assoc]
  rw [← hlegal]
  exact ⟨fun h => if_pos h, fun h => if_neg h⟩

/-- Settles O41: the turn writes the host's register, and draws anew only in the BUSY window. -/
theorem readsHaveNoSideEffect : Obligations.ReadsHaveNoSideEffect := by
  intro s r a ts hs
  refine ⟨_, step_read hs, rfl, rfl, fun hidle b => hostRead_of_sameDevice ?device ?moment b⟩
  case device => rfl
  case moment => simp [hidle]

/-- Settles O45: a poll reads STATUS, whose bit 0 is BUSY, and puts the next one behind the engine's turn. -/
theorem waitPollsUntilIdle : Obligations.WaitPollsUntilIdle := by
  intro s ts hs
  exact ⟨_, step_wait hs, rfl, waitTurn_bit s, fun hidle => by simp [hidle], fun hbusy => by simp [hbusy]⟩

/-- Settles O55: the turn is `hostWrite` of its source's value, and CTRL accepts it while BUSY = 0. -/
theorem writeTurnIsTheHostWrite : Obligations.WriteTurnIsTheHostWrite :=
  fun _ _ _ => ⟨fun _ hs => step_write hs, fun _ hs => step_write hs, fun _ hs hidle => step_ctrl_idle hs hidle⟩

/-- Settles O56: the masked register decides which turns are left. -/
theorem skipTurnIsAForwardBranch : Obligations.SkipTurnIsAForwardBranch := by
  intro s r mask count ts hs
  rw [step_skipIfSet hs]
  exact ⟨fun hset => by rw [if_pos hset], fun hclear => by rw [if_neg (not_not.2 hclear)]⟩

end Sys2Proof.Claims
end

section
/-! SUPPORT. What each kind of completion leaves unchanged (R77, R121), the errors of each command's outcome (R119), and
that an outcome looks at the command's inputs alone (R34, R52). -/

namespace Sys2Proof.Machine

open Sys2Proof.Claims

/-! ### The items a completion does not write -/

theorem completeBuffer_keeps (r : Except Raised (List Word)) (s : State) :
    (completeBuffer r s).haz = s.haz ∧ (completeBuffer r s).lkRes = s.lkRes := by
  cases r with
  | ok | error => exact ⟨rfl, rfl⟩

theorem completeLookup_keeps (r : Except Raised Word) (s : State) :
    (completeLookup r s).haz = s.haz ∧ (completeLookup r s).outMem = s.outMem ∧
      (completeLookup r s).outLen = s.outLen := by
  cases r with
  | ok | error => exact ⟨rfl, rfl, rfl⟩

/-! ### The errors of an outcome -/

/-- The outcome can fail with these errors alone, each at no position. -/
def RaisesAtNoPos {α : Type} (r : Except Raised α) (errs : List Err) : Prop :=
  ∀ e, r = .error e → ∃ x ∈ errs, e = ⟨x, none⟩

theorem checkCapacity_raises (s : State) (out : List Word) :
    RaisesAtNoPos (checkCapacity s out) [.outputCapacity] := by
  intro e h
  unfold checkCapacity at h
  split at h <;> cases h
  exact ⟨_, List.mem_singleton_self _, rfl⟩

theorem RaisesAtNoPos.mono {α : Type} {r : Except Raised α} {errs errs' : List Err} (h : RaisesAtNoPos r errs)
    (hsub : errs ⊆ errs') : RaisesAtNoPos r errs' := by
  intro e he
  obtain ⟨x, hx, hex⟩ := h e he
  exact ⟨x, hsub hx, hex⟩

theorem raisesAtNoPos_error {α : Type} {x : Err} {errs : List Err} (hx : x ∈ errs) :
    RaisesAtNoPos (.error ⟨x, none⟩ : Except Raised α) errs := by
  intro e h
  cases h
  exact ⟨x, hx, rfl⟩

theorem raisesAtNoPos_ok {α : Type} (a : α) (errs : List Err) : RaisesAtNoPos (.ok a) errs := by
  intro e h
  cases h

theorem resizeOutcome_raises (inW outW lastW : Nat) (s : State) :
    RaisesAtNoPos (resizeOutcome inW outW lastW s) [.badWidth, .inputLength, .outputCapacity] := by
  by_cases hw : widthsLegal inW outW lastW = true
  · by_cases hL : s.cfg.inDepth < s.inLen.toNat
    · rw [resizeOutcome_of_inputLength hw hL]
      exact raisesAtNoPos_error (by decide)
    · rw [resizeOutcome_of_inputFits hw (not_lt.1 hL)]
      exact (checkCapacity_raises s _).mono (by decide)
  · rw [resizeOutcome_of_badWidth hw]
    exact raisesAtNoPos_error (by decide)

/-- Under WF_ROM no group fails (R106, R109). -/
theorem encodeOutcome_raises {s : State} (hwf : romWf s.cfg = true) :
    RaisesAtNoPos (encodeOutcome s) [.inputLength, .outputCapacity] := by
  by_cases hL : s.cfg.inDepth < s.inLen.toNat
  · rw [encodeOutcome_of_inputLength hL]
    exact raisesAtNoPos_error (by decide)
  · rw [encodeOutcome_of_inputFits hwf (not_lt.1 hL)]
    exact (checkCapacity_raises s _).mono (by decide)

theorem fwdOutcome_raises (tier value : Nat) (c : Config) :
    RaisesAtNoPos (fwdOutcome tier value c) [.unrecognizedTier, .unencodableValue] := by
  by_cases htier : 2 ≤ tier
  · rw [fwdOutcome_of_tier htier]
    exact raisesAtNoPos_error (by decide)
  · cases hfwd : fwd c tier value with
    | none =>
      rw [fwdOutcome_of_none (not_le.1 htier) hfwd]
      exact raisesAtNoPos_error (by decide)
    | some cp =>
      rw [fwdOutcome_of_some (not_le.1 htier) hfwd]
      exact raisesAtNoPos_ok _ _

theorem revOutcome_raises (cp : Nat) (c : Config) :
    RaisesAtNoPos (revOutcome cp c) [.invalidCharacterWidth, .invalidCharacter] := by
  by_cases hwide : 0xFFFF < cp
  · rw [revOutcome_of_width hwide]
    exact raisesAtNoPos_error (by decide)
  · cases hrev : rev c cp with
    | none =>
      rw [revOutcome_of_none (not_lt.1 hwide) hrev]
      exact raisesAtNoPos_error (by decide)
    | some tv =>
      rw [revOutcome_of_some (not_lt.1 hwide) hrev]
      exact raisesAtNoPos_ok _ _

/-- The errors of one character of a text (R113). -/
def characterErrs : List Err := [.invalidCharacterWidth, .invalidCharacter, .misplacedPadding]

/-- A failing character fails with one of them, at its own position. -/
theorem decodeChar_eq_error {c : Config} {p cp : Nat} {last : Bool} {e : Raised}
    (h : decodeChar c p cp last = .error e) :
    ∃ x ∈ characterErrs, e = ⟨x, some p⟩ := by
  unfold decodeChar at h
  split at h
  · cases h; exact ⟨_, by decide, rfl⟩
  · split at h
    · cases h; exact ⟨_, by decide, rfl⟩
    · split at h <;> cases h
      exact ⟨_, by decide, rfl⟩

/-- DECODE fails at a character of the text, or with one of the two errors of a length (R111, R118). -/
theorem decodeOutcome_eq_error {s : State} {e : Raised} (h : decodeOutcome s = .error e) :
    (∃ x ∈ [Err.inputLength, .outputCapacity], e = ⟨x, none⟩) ∨
    ∃ p < s.inLen.toNat, ∃ x ∈ characterErrs, e = ⟨x, some p⟩ := by
  by_cases hL : s.cfg.inDepth < s.inLen.toNat
  · rw [decodeOutcome_of_inputLength hL] at h
    exact .inl (raisesAtNoPos_error (by decide) e h)
  rw [decodeOutcome, checkInputLength_ok (not_lt.1 hL)] at h
  cases hchars : decodeChars s.cfg 0 ((inEntries s).map codepointOf) with
  | ok r =>
    simp only [hchars] at h
    exact .inl ((checkCapacity_raises s _).mono (by decide) e h)
  | error e' =>
    simp only [hchars, Except.error.injEq] at h
    subst h
    obtain ⟨p, cp, hp, he, -⟩ := (decodeChars_eq_error_iff _ _ _ _).1 hchars
    rw [inEntries_codepointOf_getElem?] at hp
    split at hp
    case isTrue hlt => exact .inr ⟨p, hlt, by simpa using decodeChar_eq_error he⟩
    case isFalse => cases hp

/-! ### The report of a command -/

/-- What R119 and R121 say of ERRCODE and ERRPOS after the command `i` over `L` entries. -/
def ReportFits (i : Instr) (L : Nat) (code : BitVec 4) (pos : Word) : Prop :=
  code ∈ reachableCodes i ∧ (code = 0 → pos = 0) ∧
    (code ∈ [0x2, 0x3, 0x7, 0x8, 0x9, 0xA] → pos = 0xFFFFFFFF) ∧
    (code ∈ [0x4, 0x5, 0x6] → if i = .decode then pos.toNat < L else pos = 0xFFFFFFFF)

theorem reportFits_success {i : Instr} (hi : i ≠ .nop) (L : Nat) : ReportFits i L 0 0 := by
  refine ⟨?reachable, fun _ => rfl, fun h => absurd h (by decide), fun h => absurd h (by decide)⟩
  cases i with
  | nop => exact absurd rfl hi
  | resize | encode | decode | fwd | rev | clear => exact List.mem_cons_self

/-- An error at no position fits every command that reaches its code, DECODE's errors of one character apart. -/
theorem reportFits_noPos {i : Instr} {x : Err} (hcode : errCodeOf x ∈ reachableCodes i)
    (hchar : i = .decode → errCodeOf x ∉ [0x4, 0x5, 0x6]) (L : Nat) : ReportFits i L (errCodeOf x) (posWord none) := by
  refine ⟨hcode, fun hzero => absurd hzero (errCodeOf_ne_zero x), fun _ => rfl, fun hcharacter => ?_⟩
  split
  case isTrue hi => exact absurd hcharacter (hchar hi)
  case isFalse => rfl

theorem reportFits_decodeChar {x : Err} (hx : x ∈ characterErrs)
    {p L : Nat} (hp : p < L) : ReportFits .decode L (errCodeOf x) (posWord (some p)) := by
  have hpos : (posWord (some p)).toNat < L := (Nat.mod_le p _).trans_lt hp
  have hcodes : ∀ x ∈ characterErrs,
      errCodeOf x ∈ reachableCodes .decode ∧ errCodeOf x ∉ [0x2, 0x3, 0x7, 0x8, 0x9, 0xA] := by decide
  obtain ⟨hcode, hother⟩ := hcodes x hx
  exact ⟨hcode, fun hzero => absurd hzero (errCodeOf_ne_zero x), fun h => absurd h hother,
    fun _ => by rw [if_pos rfl]; exact hpos⟩

/-- A buffer command's report comes from its outcome. -/
theorem completeBuffer_reportFits {i : Instr} (hi : i ≠ .nop) {L : Nat} {r : Except Raised (List Word)}
    (h : ∀ e, r = .error e → ReportFits i L (errCodeOf e.err) (posWord e.pos)) (s : State) :
    ReportFits i L (completeBuffer r s).errCode (completeBuffer r s).errPos := by
  cases r with
  | ok out => exact reportFits_success hi L
  | error e => exact h e rfl

/-- A lookup command's report comes from its outcome. -/
theorem completeLookup_reportFits {i : Instr} (hi : i ≠ .nop) {L : Nat} {r : Except Raised Word}
    (h : ∀ e, r = .error e → ReportFits i L (errCodeOf e.err) (posWord e.pos)) (s : State) :
    ReportFits i L (completeLookup r s).errCode (completeLookup r s).errPos := by
  cases r with
  | ok w => exact reportFits_success hi L
  | error e => exact h e rfl

theorem RaisesAtNoPos.reportFits {α : Type} {r : Except Raised α} {errs : List Err} (h : RaisesAtNoPos r errs)
    {i : Instr} (hi : i ≠ .decode) (hcodes : ∀ x ∈ errs, errCodeOf x ∈ reachableCodes i) (L : Nat) :
    ∀ e, r = .error e → ReportFits i L (errCodeOf e.err) (posWord e.pos) := by
  intro e he
  obtain ⟨x, hx, rfl⟩ := h e he
  exact reportFits_noPos (hcodes x hx) (fun hdecode => absurd hdecode hi) L

/-! ### The inputs of a command -/

/-- The two states give a command the same inputs: the ROM and the depths, IN_LEN, and the entries below it (R34). -/
structure SameInputs (s t : State) : Prop where
  cfg : s.cfg = t.cfg
  inLen : s.inLen = t.inLen
  entries : inEntries s = inEntries t

theorem SameInputs.checkInputLength {s t : State} (h : SameInputs s t) :
    checkInputLength s = checkInputLength t := by
  unfold Machine.checkInputLength
  rw [h.cfg, h.inLen]

theorem SameInputs.checkCapacity {s t : State} (h : SameInputs s t) (out : List Word) :
    checkCapacity s out = checkCapacity t out := by
  unfold Machine.checkCapacity
  rw [h.cfg]

/-- A buffer command has one outcome over the same inputs. -/
theorem SameInputs.exec_buffer {s t : State} (h : SameInputs s t) {i : Instr} (hi : isBufferCommand i = true) :
    ∃ r, exec i s = .next (completeBuffer r s) ∧ exec i t = .next (completeBuffer r t) := by
  suffices houtcome : ∃ outcome : State → Except Raised (List Word), outcome s = outcome t ∧
      ∀ u, exec i u = .next (completeBuffer (outcome u) u) by
    obtain ⟨outcome, hsame, hexec⟩ := houtcome
    exact ⟨outcome s, hexec s, hsame ▸ hexec t⟩
  cases i with
  | nop | clear | fwd | rev => cases hi
  | resize inW outW lastW =>
    refine ⟨resizeOutcome inW outW lastW, ?_, exec_resize inW outW lastW⟩
    unfold resizeOutcome
    rw [h.checkInputLength, h.entries]
    simp only [h.checkCapacity]
  | encode =>
    refine ⟨encodeOutcome, ?_, exec_encode⟩
    unfold encodeOutcome
    rw [h.checkInputLength, h.entries, h.cfg]
    simp only [h.checkCapacity]
  | decode =>
    refine ⟨decodeOutcome, ?_, exec_decode⟩
    unfold decodeOutcome
    rw [h.checkInputLength, h.entries, h.cfg]
    simp only [h.checkCapacity]

/-- A lookup command's outcome is one of the ROM. -/
theorem SameInputs.exec_lookup {s t : State} (h : SameInputs s t) {i : Instr} (hi : isLookupCommand i = true) :
    ∃ r, exec i s = .next (completeLookup r s) ∧ exec i t = .next (completeLookup r t) := by
  cases i with
  | nop | clear | resize | encode | decode => cases hi
  | fwd tier value => exact ⟨fwdOutcome tier value s.cfg, exec_fwd tier value s, h.cfg ▸ exec_fwd tier value t⟩
  | rev cp => exact ⟨revOutcome cp s.cfg, exec_rev cp s, h.cfg ▸ exec_rev cp t⟩

/-- The report and the visible output are the outcome's, whatever the state held. -/
theorem completeBuffer_results (r : Except Raised (List Word)) (s t : State) :
    (completeBuffer r s).err = (completeBuffer r t).err ∧ (completeBuffer r s).errCode = (completeBuffer r t).errCode ∧
      (completeBuffer r s).errPos = (completeBuffer r t).errPos ∧
      (completeBuffer r s).outLen = (completeBuffer r t).outLen ∧
      ∀ k, k < (completeBuffer r s).outLen.toNat →
        Memory.lookup (completeBuffer r s).outMem k = Memory.lookup (completeBuffer r t).outMem k := by
  cases r with
  | error e => exact ⟨rfl, rfl, rfl, rfl, fun _ _ => rfl⟩
  | ok out =>
    refine ⟨rfl, rfl, rfl, rfl, fun k hk => ?_⟩
    have hk' : k < out.length := hk.trans_le (Nat.mod_le _ _)
    have written (u : State) : Memory.lookup (commitBuffer out u).outMem k = out[k]? :=
      (lookup_storeAll_zero out u.outMem k).trans (if_pos hk')
    exact (written s).trans (written t).symm

theorem completeLookup_results (r : Except Raised Word) (s t : State) :
    (completeLookup r s).err = (completeLookup r t).err ∧ (completeLookup r s).errCode = (completeLookup r t).errCode ∧
      (completeLookup r s).errPos = (completeLookup r t).errPos ∧
      (completeLookup r s).lkRes = (completeLookup r t).lkRes := by
  cases r with
  | ok | error => exact ⟨rfl, rfl, rfl, rfl⟩

end Sys2Proof.Machine
end

section
/-! PROOF. The obligations on every command: frame, reachable errors, and dependence on the inputs alone. -/

namespace Sys2Proof.Claims

open Sys2Proof.Machine

/-- Settles O30: `Completes` gives the common frame, and the rest is what a command of each class leaves. -/
theorem commandFrame : Obligations.CommandFrame := by
  intro i s
  obtain ⟨t, ht, hc⟩ := exec_completes i s
  refine ⟨t, ht, hc.busy, hc.done, hc.cfg, hc.inLen, hc.inMem, hc.ie, hc.cmdl, hc.hostRegs, hc.script, hc.draws,
    hc.epoch, ?_⟩
  clear hc
  cases i with
  | nop =>
    cases ht
    exact ⟨fun _ => rfl, fun _ => ⟨rfl, fun _ => rfl⟩, fun _ _ => rfl⟩
  | clear =>
    cases ht
    exact ⟨fun hne => absurd rfl hne, fun _ => ⟨rfl, fun hne => absurd rfl hne⟩, fun _ hne => absurd rfl hne⟩
  | resize | encode | decode =>
    cases ht
    obtain ⟨hhaz, hlkRes⟩ := completeBuffer_keeps _ s
    exact ⟨fun _ => hhaz, fun hclass => Bool.noConfusion hclass, fun _ _ => hlkRes⟩
  | fwd | rev =>
    cases ht
    obtain ⟨hhaz, houtMem, houtLen⟩ := completeLookup_keeps _ s
    exact ⟨fun _ => hhaz, fun _ => ⟨houtMem, fun _ => houtLen⟩, fun hclass => Bool.noConfusion hclass⟩

/-- Settles O32: the report is that of a success or of an error the command's outcome can be. -/
theorem errorCodesOfEachCommand : Obligations.ErrorCodesOfEachCommand := by
  intro i s t hcfg hi ht
  suffices hfits : ReportFits i s.inLen.toNat t.errCode t.errPos from hfits
  have hwf := romWf_of_legal hcfg
  cases i with
  | nop => exact absurd rfl hi
  | clear =>
    cases ht
    exact reportFits_success hi _
  | resize inW outW lastW =>
    cases ht
    have hraises := resizeOutcome_raises inW outW lastW s
    exact completeBuffer_reportFits hi (hraises.reportFits (by simp) (by simp [reachableCodes, errCodeOf]) _) s
  | encode =>
    cases ht
    have hraises := encodeOutcome_raises hwf
    exact completeBuffer_reportFits hi (hraises.reportFits (by simp) (by simp [reachableCodes, errCodeOf]) _) s
  | decode =>
    cases ht
    refine completeBuffer_reportFits hi (fun e he => ?_) s
    obtain ⟨x, hx, rfl⟩ | ⟨p, hp, x, hx, rfl⟩ := decodeOutcome_eq_error he
    · have hcodes : ∀ x ∈ [Err.inputLength, .outputCapacity],
          errCodeOf x ∈ reachableCodes .decode ∧ errCodeOf x ∉ [0x4, 0x5, 0x6] := by decide
      obtain ⟨hcode, hchar⟩ := hcodes x hx
      exact reportFits_noPos hcode (fun _ => hchar) _
    · exact reportFits_decodeChar hx hp
  | fwd tier value =>
    cases ht
    have hraises := fwdOutcome_raises tier value s.cfg
    exact completeLookup_reportFits hi (hraises.reportFits (by simp) (by simp [reachableCodes, errCodeOf]) _) s
  | rev cp =>
    cases ht
    have hraises := revOutcome_raises cp s.cfg
    exact completeLookup_reportFits hi (hraises.reportFits (by simp) (by simp [reachableCodes, errCodeOf]) _) s

/-- Settles O33: over the same inputs the command has one outcome, and a completion publishes the outcome. -/
theorem resultsDependOnInputsAlone : Obligations.ResultsDependOnInputsAlone := by
  intro i s t s' t' hclass hcfg hinLen hentries hs ht
  have hinputs : SameInputs s t :=
    ⟨hcfg, hinLen, by
      rw [inEntries, inEntries, ← hinLen]
      exact List.map_congr_left fun k hk => hentries k (List.mem_range.1 hk)⟩
  obtain hbuffer | hlookup := hclass
  · obtain ⟨r, hrs, hrt⟩ := hinputs.exec_buffer hbuffer
    cases hrs.symm.trans hs
    cases hrt.symm.trans ht
    obtain ⟨herr, hcode, hpos, hlen, hwords⟩ := completeBuffer_results r s t
    refine ⟨herr, hcode, hpos, fun _ => ⟨hlen, hwords⟩, fun hlookup => ?_⟩
    rw [isBufferCommand_iff] at hbuffer
    rw [isLookupCommand_iff, hbuffer] at hlookup
    cases hlookup
  · obtain ⟨r, hrs, hrt⟩ := hinputs.exec_lookup hlookup
    cases hrs.symm.trans hs
    cases hrt.symm.trans ht
    obtain ⟨herr, hcode, hpos, hlkRes⟩ := completeLookup_results r s t
    refine ⟨herr, hcode, hpos, fun hbuffer => ?_, fun _ => hlkRes⟩
    rw [isLookupCommand_iff] at hlookup
    rw [isBufferCommand_iff, hlookup] at hbuffer
    cases hbuffer

end Sys2Proof.Claims
end

section
/-! SUPPORT. Runs of several turns: a command in flight through the host's turns (70_reset_and_hazards.md R147), and the
writes of LOADIN (30_encoding.md R74). -/

namespace Sys2Proof.Machine

/-! ### A command in flight through the host's turns -/

@[simp] theorem hostWrite_script (a : Addr) (v : Word) (s : State) : (hostWrite a v s).script = s.script := by
  obtain ⟨-, h⟩ | ⟨-, h⟩ | ⟨i, -, h⟩ | ⟨-, h⟩ | ⟨-, h⟩ | ⟨-, h⟩ := hostWrite_cases a v s <;> rw [h]
  case inl | inr.inl | inr.inr.inl => split <;> rfl

/-- A host turn other than WAIT leaves the command in flight and adds no turn. -/
theorem takeTurn_inFlight {x : Turn} (hengine : x ≠ .engine) (hreset : x ≠ .reset) (hwait : x ≠ .wait) {s : State}
    (hbusy : s.busy = true) : ∃ t, takeTurn x s = .next t ∧ t.busy = true ∧ t.script <:+ s.script := by
  cases x with
  | engine => exact absurd rfl hengine
  | reset => exact absurd rfl hreset
  | wait => exact absurd rfl hwait
  | write a v =>
    have hscript : (writeTurn a v s).script = s.script := hostWrite_script a _ (newMoment s)
    exact ⟨_, rfl, (hostWrite_staysInFlight (s := newMoment s) hbusy a _).busy, hscript ▸ List.suffix_rfl⟩
  | read r a =>
    refine ⟨_, rfl, ((readTurn_sameDevice r a s).staysInFlight hbusy).busy, ?_⟩
    rw [readTurn_eq]
  | skipIfSet r mask count =>
    refine ⟨_, rfl, ((skipTurn_sameDevice r mask count s).staysInFlight hbusy).busy, ?_⟩
    rw [skipTurn_eq]
    split
    · exact List.drop_suffix count s.script
    · exact List.suffix_rfl

/-- The engine's turn completes the command in flight. -/
theorem engineTurn_done {s : State} (hbusy : s.busy = true) :
    ∃ t, engineTurn s = .next t ∧ t.busy = false ∧ t.done = true := by
  obtain ⟨t, ht, hc⟩ := completeCommand_completes (newMoment s)
  exact ⟨t, (engineTurn_busy hbusy).trans ht, hc.busy, hc.done⟩

theorem step_engine_done {s : State} {ts : List Turn} (hs : s.script = .engine :: ts) (hbusy : s.busy = true) :
    ∃ t, step s = .next t ∧ t.busy = false ∧ t.done = true :=
  step_cons hs ▸ engineTurn_done (s := { s with script := ts }) hbusy

/-- One step is a run of one. -/
theorem run_one {s t : State} (h : step s = .next t) : Sys2Proof.core.run 1 s = .next t := run_succ 0 h

/-- ISSUE of an idle device, and the first poll of WAIT: the word is in flight and the engine's turn comes next. -/
theorem run_issue_poll {s : State} {w : Word} {ts : List Turn} (hidle : s.busy = false)
    (hs : s.script = .write 0x000004 (.imm w) :: .wait :: ts) :
    ∃ polled : Vector Word 8, ∀ m, Sys2Proof.core.run (m + 2) s =
      Sys2Proof.core.run m { s with
        cmdl := w, busy := true, done := false,
        hostRegs := polled, script := .engine :: .wait :: ts, draws := s.draws + 2 } :=
  ⟨_, fun m => (run_succ (m + 1) (step_ctrl_idle hs hidle)).trans (run_succ m (step_wait_busy rfl rfl))⟩

/-! ### The writes of LOADIN -/

/-- The entries are written from `i` on, one turn each. -/
theorem run_loadEntries (vs : List Word) (m i : Nat) (ts : List Turn) (s : State) (hlegal : configLegal s.cfg = true)
    (hidle : s.busy = false) (hfit : i + vs.length ≤ s.cfg.inDepth) (hs : s.script = loadEntries i vs ++ ts) :
    Sys2Proof.core.run (vs.length + m) s =
      Sys2Proof.core.run m
        { s with script := ts, inMem := Memory.storeAll s.inMem i vs, draws := s.draws + vs.length } := by
  induction vs generalizing i s with
  | nil =>
    obtain rfl : s.script = ts := hs
    rw [List.length_nil, Nat.zero_add]
    rfl
  | cons v vs ih =>
    rw [List.length_cons] at hfit ⊢
    have hdepth := inDepth_le_of_legal hlegal
    have htarget : target s.cfg (inAddr i) = .inEntry i := (target_inAddr s.cfg (by omega)).trans (if_pos (by omega))
    have hstep : step s = .next { s with
        script := loadEntries (i + 1) vs ++ ts, inMem := Memory.store s.inMem i v, draws := s.draws + 1 } :=
      (step_write hs).trans (congrArg Host.Outcome.next (hostWrite_of_inEntry_idle
        (s := { s with script := loadEntries (i + 1) vs ++ ts, draws := s.draws + 1 }) htarget hidle v))
    have hdraws : s.draws + (vs.length + 1) = s.draws + 1 + vs.length := by omega
    rw [Nat.add_right_comm, run_succ _ hstep, hdraws]
    refine ih (i + 1) _ ?legal ?idle ?fit rfl
    case legal => exact hlegal
    case idle => exact hidle
    case fit => show i + 1 + vs.length ≤ s.cfg.inDepth; omega

end Sys2Proof.Machine
end

section
/-! PROOF. The obligations on runs: that an accepted command completes, and RUN and LOADIN. -/

namespace Sys2Proof.Claims

open Sys2Proof.Machine

/-- Settles O54, by induction on the number of turns: the engine's turn completes the command, a poll puts that turn
next, and any other turn leaves a command in flight with fewer turns to come. -/
theorem acceptedCommandCompletes : Obligations.AcceptedCommandCompletes := by
  intro s hbusy hreset
  induction hn : s.script.length using Nat.strong_induction_on generalizing s with
  | _ n ih =>
    subst hn
    cases hs : s.script with
    | nil =>
      obtain ⟨t, ht, hdone⟩ := engineTurn_done hbusy
      exact ⟨1, t, by simp, run_one ((step_nil hs).trans ht), hdone⟩
    | cons x ts =>
      rw [hs, List.mem_cons, not_or] at hreset
      obtain ⟨hx, hts⟩ := hreset
      by_cases hengine : x = .engine
      · subst hengine
        obtain ⟨t, ht, hdone⟩ := step_engine_done hs hbusy
        exact ⟨1, t, by simp, run_one ht, hdone⟩
      by_cases hwait : x = .wait
      · subst hwait
        obtain ⟨u, hu, hubusy, huscript⟩ :
            ∃ u, step s = .next u ∧ u.busy = true ∧ u.script = .engine :: .wait :: ts :=
          ⟨_, step_wait_busy hs hbusy, hbusy, rfl⟩
        obtain ⟨t, ht, hdone⟩ := step_engine_done huscript hubusy
        exact ⟨2, t, by simp, (run_succ 1 hu).trans (run_one ht), hdone⟩
      obtain ⟨u, hu, hubusy, hsuffix⟩ :=
        takeTurn_inFlight (s := { s with script := ts }) hengine (Ne.symm hx) hwait hbusy
      have hlen : u.script.length ≤ ts.length := hsuffix.length_le
      obtain ⟨k, t, hk, hrun, hdone⟩ := ih u.script.length (by rw [hs, List.length_cons]; omega) u hubusy
        (fun hmem => hts (hsuffix.subset hmem)) rfl
      refine ⟨k + 1, t, ?_, (run_succ k ((step_cons hs).trans hu)).trans hrun, hdone⟩
      rw [List.length_cons]
      omega

/-- Settles O57: the write is accepted, the poll finds BUSY = 1 and lets the engine run the command that the accepted
word decodes to (O1), and the second poll finds BUSY = 0. -/
theorem runIssuesTheCommandAndWaits : Obligations.RunIssuesTheCommandAndWaits := by
  intro s i ts hwf hidle hs
  obtain ⟨polled, hissued⟩ := run_issue_poll hidle hs
  obtain ⟨u, hu, hc⟩ := exec_completes i { s with
    cmdl := encode i, busy := true, done := false,
    hostRegs := polled, script := .wait :: ts, draws := s.draws + 3 }
  have hcompleted : Sys2Proof.core.run 4 s = Sys2Proof.core.run 1 u :=
    (hissued 2).trans (run_succ 1 (Eq.trans (step_engine_of_legal rfl rfl (encodeThenDecode i hwf)) hu))
  have hpolled := step_wait_idle hc.script hc.busy
  exact ⟨polled, u, _, hu, hcompleted.trans (run_one hpolled), rfl, hc.busy, hc.done⟩

/-- Settles O58: the writes fill the entries from 0 on, and the last one sets IN_LEN. -/
theorem loadInFillsTheInputBuffer : Obligations.LoadInFillsTheInputBuffer := by
  intro s vs ts hlegal hidle hfit hs
  have hdepth := inDepth_le_of_legal hlegal
  rw [loadIn, List.append_assoc] at hs
  have hentries := run_loadEntries vs 1 0 _ s hlegal hidle (by omega) hs
  refine ⟨_, hentries.trans (run_one ((step_write rfl).trans
    (congrArg Host.Outcome.next (hostWrite_inLen_idle ?idle _)))), rfl, ?length, fun k v hk => ?loaded,
    fun k hk => ?kept⟩
  case idle => exact hidle
  case length => exact Nat.mod_eq_of_lt (show vs.length < 2 ^ 32 by omega)
  case loaded =>
    obtain ⟨hlt, -⟩ := List.getElem?_eq_some_iff.1 hk
    exact (lookup_storeAll_zero vs s.inMem k).trans ((if_pos hlt).trans hk)
  case kept => exact (lookup_storeAll_zero vs s.inMem k).trans (if_neg (not_lt.2 hk))

end Sys2Proof.Claims
end
